-- ==== Sys2Proof/Word.lean ====
section
/-! DEFINITION. The word types of the BC8 core (spec/00_scope.md R7, R8; spec/30_encoding.md R61). -/

namespace Sys2Proof

/-- A 4-bit field of an instruction word (R61: `op`, `n`). -/
abbrev Nibble := BitVec 4

/-- A byte: a general register, a memory cell, a timer, the immediate `nn` (R7, R61). -/
abbrev Byte := BitVec 8

/-- A 12-bit address immediate `nnn` (R61). -/
abbrev Addr := BitVec 12

/-- A 16-bit word: `I`, `PC`, a call-stack slot, an instruction word (R7). -/
abbrev Word := BitVec 16

/-- The index of a general register or of a key, 0 to 15 (R10, R20, R61). -/
abbrev Reg := Fin 16

end Sys2Proof
end

