-- ==== Sys2Proof/Config.lean ====
section
/-! DEFINITION. What is fixed for the machine (spec/00_scope.md R7) and the one free value (R156). -/

namespace Sys2Proof.Config

/-- `MEM_SIZE`: the addresses are 0 to 4095 (R7, R40). -/
def memSize : Nat := 4096

/-- `ENTRY`: `PC` after reset and the offset of the program (R7, R47). -/
def entry : Nat := 0x200

/-- Columns of the frame buffer (R7, R142). -/
def columns : Nat := 64

/-- Rows of the frame buffer (R7, R142). -/
def rows : Nat := 32

/-- `MEM_FILL`: what a byte that is neither font nor written holds (R25, R201; the spec's D2; log 2). -/
def memFill : Byte := 0x00

/-- Glyphs 0 to 7 of `FONT`, five bytes each (R48). -/
def fontLow : List Byte :=
  [0xF0, 0x90, 0x90, 0x90, 0xF0] ++ [0x20, 0x60, 0x20, 0x20, 0x70] ++
  [0xF0, 0x10, 0xF0, 0x80, 0xF0] ++ [0xF0, 0x10, 0xF0, 0x10, 0xF0] ++
  [0x90, 0x90, 0xF0, 0x10, 0x10] ++ [0xF0, 0x80, 0xF0, 0x10, 0xF0] ++
  [0xF0, 0x80, 0xF0, 0x90, 0xF0] ++ [0xF0, 0x10, 0x20, 0x40, 0x40]

/-- Glyphs 8 to F of `FONT` (R48). -/
def fontHigh : List Byte :=
  [0xF0, 0x90, 0xF0, 0x90, 0xF0] ++ [0xF0, 0x90, 0xF0, 0x10, 0xF0] ++
  [0xF0, 0x90, 0xF0, 0x90, 0x90] ++ [0xE0, 0x90, 0xE0, 0x90, 0xE0] ++
  [0xF0, 0x80, 0x80, 0x80, 0xF0] ++ [0xE0, 0x90, 0x90, 0x90, 0xE0] ++
  [0xF0, 0x80, 0xF0, 0x80, 0xF0] ++ [0xF0, 0x80, 0xF0, 0x80, 0x80]

/-- `FONT`: the 80 bytes at addresses 0 to 79 after reset, the spec's default table.
PRESUMED: the spec marks the table as general knowledge (R48, D3, G2); log 1. Unsafe. -/
def font : List Byte := fontLow ++ fontHigh

/-- `RandomSource` (R156, D15): the byte that the k-th executed `Cxnn` receives. A FREE VALUE: it has no
body, so a claim about it holds for every sequence of draws (log 4). -/
opaque randomByte : Nat → Byte

end Sys2Proof.Config
end

