-- ==== Sys2Proof/Syntax.lean ====
section
/-! DEFINITION. The instructions: one constructor per row of spec/opcode_table.json (R64). -/

namespace Sys2Proof

/-- The 34 instruction patterns (R64), each with the operand fields of its format (R62). The types of the
fields are their widths (R61), so every value is an instruction. `shr` and `shl` keep the field `y`, which
is decoded and not used (R65; log 21). -/
inductive Instr where
  /-- `00E0` (R140) -/
  | cls
  /-- `00EE` (R103) -/
  | ret
  /-- `1nnn` (R101) -/
  | jp (nnn : Addr)
  /-- `2nnn` (R102) -/
  | call (nnn : Addr)
  /-- `3xnn` (R105) -/
  | se (x : Reg) (nn : Byte)
  /-- `4xnn` (R106) -/
  | sne (x : Reg) (nn : Byte)
  /-- `5xy0` (R107) -/
  | ser (x y : Reg)
  /-- `6xnn` (R82) -/
  | ldi (x : Reg) (nn : Byte)
  /-- `7xnn` (R83) -/
  | addi (x : Reg) (nn : Byte)
  /-- `8xy0` (R84) -/
  | mov (x y : Reg)
  /-- `8xy1` (R85) -/
  | or (x y : Reg)
  /-- `8xy2` (R86) -/
  | and (x y : Reg)
  /-- `8xy3` (R87) -/
  | xor (x y : Reg)
  /-- `8xy4` (R88) -/
  | add (x y : Reg)
  /-- `8xy5` (R89) -/
  | sub (x y : Reg)
  /-- `8xy6` (R90) -/
  | shr (x y : Reg)
  /-- `8xy7` (R91) -/
  | subn (x y : Reg)
  /-- `8xyE` (R92) -/
  | shl (x y : Reg)
  /-- `9xy0` (R108) -/
  | sner (x y : Reg)
  /-- `Annn` (R120) -/
  | lda (nnn : Addr)
  /-- `Bnnn` (R104) -/
  | jpv0 (nnn : Addr)
  /-- `Cxnn` (R156) -/
  | rnd (x : Reg) (nn : Byte)
  /-- `Dxyn` (R141) -/
  | drw (x y : Reg) (n : Nibble)
  /-- `Ex9E` (R153) -/
  | skp (x : Reg)
  /-- `ExA1` (R154) -/
  | sknp (x : Reg)
  /-- `Fx07` (R150) -/
  | gdt (x : Reg)
  /-- `Fx0A` (R155) -/
  | wkey (x : Reg)
  /-- `Fx15` (R151) -/
  | sdt (x : Reg)
  /-- `Fx18` (R152) -/
  | sst (x : Reg)
  /-- `Fx1E` (R121) -/
  | adda (x : Reg)
  /-- `Fx29` (R122) -/
  | font (x : Reg)
  /-- `Fx33` (R123) -/
  | bcd (x : Reg)
  /-- `Fx55` (R124): here `x` is a count, the last register stored -/
  | stm (x : Reg)
  /-- `Fx65` (R125): here `x` is a count, the last register loaded -/
  | ldm (x : Reg)
deriving DecidableEq, Repr

/-- The spec's label of an instruction (R64, R69). -/
def Instr.mnemonic : Instr → String
  | .cls => "CLS" | .ret => "RET" | .jp _ => "JP" | .call _ => "CALL"
  | .se _ _ => "SE" | .sne _ _ => "SNE" | .ser _ _ => "SER" | .ldi _ _ => "LDI"
  | .addi _ _ => "ADDI" | .mov _ _ => "MOV" | .or _ _ => "OR" | .and _ _ => "AND"
  | .xor _ _ => "XOR" | .add _ _ => "ADD" | .sub _ _ => "SUB" | .shr _ _ => "SHR"
  | .subn _ _ => "SUBN" | .shl _ _ => "SHL" | .sner _ _ => "SNER" | .lda _ => "LDA"
  | .jpv0 _ => "JPV0" | .rnd _ _ => "RND" | .drw _ _ _ => "DRW" | .skp _ => "SKP"
  | .sknp _ => "SKNP" | .gdt _ => "GDT" | .wkey _ => "WKEY" | .sdt _ => "SDT"
  | .sst _ => "SST" | .adda _ => "ADDA" | .font _ => "FONT" | .bcd _ => "BCD"
  | .stm _ => "STM" | .ldm _ => "LDM"

end Sys2Proof
end

