-- ==== Sys2Proof/Machine/State.lean ====
section
/-! DEFINITION. The whole state of the machine as plain data (spec/10_state.md), the fault causes, the
events, and the state after reset. -/

namespace Sys2Proof.Machine

/-- The six fault causes of R170. A fault of the BC8 core is not a stop of the model: taking one writes the
fault latch and gives a NEXT state (R177; log 6). -/
inductive FaultCause where
  /-- code 1: fetch, `DRW`, `BCD`, `STM`, `LDM` beyond address 4095 (R171) -/
  | outOfBoundsMemoryAccess
  /-- code 2: defined by the source's register-file contract, raised by nothing (R172; log 22) -/
  | invalidRegisterIndex
  /-- code 3: `CALL` with 16 entries in use (R173) -/
  | stackOverflow
  /-- code 4: `RET` on an empty stack (R174) -/
  | stackUnderflow
  /-- code 5: the fetched word matches no pattern (R175) -/
  | unknownOpcode
  /-- code 6: `SKP`, `SKNP` with an index above 15 (R176) -/
  | invalidKeyIndex
deriving DecidableEq, Repr

/-- The fault latch (R22): `HALTED` (1 bit), `FAULT_CODE` (3 bits), `FAULT_PC` and `FAULT_INFO` (16 bits). -/
structure FaultLatch where
  halted : Bool
  code : BitVec 3
  pc : Word
  info : Word
deriving DecidableEq, Repr

/-- The latch after reset: all 0 (R22, R25). -/
def FaultLatch.clear : FaultLatch := { halted := false, code := 0, pc := 0, info := 0 }

/-- The events that change state; each is atomic (R6, R183). -/
inductive HostEvent where
  /-- the core executes one instruction (R67) -/
  | step
  /-- the timer clock ticks (R184) -/
  | tick
  /-- the host sets a keypad entry (R20, R187) -/
  | key (k : Reg) (pressed : Bool)
  /-- the host writes a block into memory (R53) -/
  | load (offset : Nat) (bytes : List Byte)
  /-- the host resets the machine (R200) -/
  | reset
deriving DecidableEq, Repr

/-- Memory: the listed cells, addresses strictly rising, none equal to what an unlisted address reads as
(`Memory.wf` and `Memory.unlisted` in Machine/Ops.lean). -/
abbrev Memory := List Host.Cell

/-- The frame buffer: 32 rows of 64 one-bit cells, `FB[px + 64 × py]` being bit `px` of row `py` (R23, R142;
log 23). -/
abbrev Screen := Vector (BitVec 64) 32

/-- Every cell 0 (R25, R140). -/
def Screen.dark : Screen := Vector.replicate 32 0

/-- The state of the machine (R10 to R25), and two fields of the model's own: `draws` and `schedule`. -/
structure State where
  /-- `V[0..15]`, 8 bits each; `V[15]` is VF (R10, R11) -/
  v : Vector Byte 16
  /-- `I`, 16 bits (R13) -/
  i : Word
  /-- `PC`, 16 bits (R15) -/
  pc : Word
  /-- `STACK[0..15]`, 16 bits each (R14) -/
  stack : Vector Word 16
  /-- `SP`, the number of entries in use, 0 to 16 (R14) -/
  sp : Fin 17
  /-- `DT`, the delay timer (R19) -/
  dt : Byte
  /-- `ST`, the sound timer (R19) -/
  st : Byte
  /-- `FB[0..2047]` (R23) -/
  fb : Screen
  /-- `MEM[0..4095]` (R23, R40) -/
  mem : Memory
  /-- `KEY[0..15]`, true when pressed (R20) -/
  key : Vector Bool 16
  /-- `HALTED`, `FAULT_CODE`, `FAULT_PC`, `FAULT_INFO` (R22) -/
  latch : FaultLatch
  /-- the model's own: how many bytes `RandomSource` has delivered (R156; log 4) -/
  draws : Nat
  /-- the model's own: the events that come next, first first; when it is empty the next event is a `step`
  (R183; log 5) -/
  schedule : List HostEvent
deriving DecidableEq, Repr

/-- Why a step of the MODEL may stop with a fault: never. Every fault of the spec halts the core by its
latch and is a next state (R177, R180), so this type has no constructor. Safe. -/
inductive Fault
deriving DecidableEq, Repr

/-- Why a step of the model may be refused. -/
inductive Refusal where
  /-- raised by an arm of `exec` whose instruction has no meaning yet; no arm is left so. Safe. -/
  | notModelled (mnemonic : String)
deriving DecidableEq, Repr

/-- The state right after the `reset` event (R25, R200). `draws` and `schedule` are no state of the core:
DESIGN CHOICE 0 and empty (logs 4, 5). -/
def State.reset : State where
  v := Vector.replicate 16 0x00
  i := 0x0000
  pc := BitVec.ofNat 16 Config.entry
  stack := Vector.replicate 16 0x0000
  sp := 0
  dt := 0x00
  st := 0x00
  fb := Screen.dark
  mem := []
  key := Vector.replicate 16 false
  latch := FaultLatch.clear
  draws := 0
  schedule := []

end Sys2Proof.Machine
end

