-- ==== Sys2Proof/Machine/Ops.lean ====
section
/-! DEFINITION. The named operations over memory, registers, the call stack, the frame buffer and the fault
latch; the commit of an outcome to `PC`; taking a fault. Every meaning is written over these. -/

namespace Sys2Proof.Machine

/-! ### Memory (spec/20_memory.md) -/

/-- What an address that is not listed reads as: its reset content, `FONT` and then `MEM_FILL` (R25, R48,
R201; logs 1, 2). -/
def Memory.unlisted (a : Nat) : Byte := Config.font.getD a Config.memFill

/-- The byte at an address (R40). -/
def Memory.read : Memory → Nat → Byte
  | [], a => Memory.unlisted a
  | (b, v) :: rest, a => if b = a then v else Memory.read rest a

/-- The memory with no cell listed for an address. -/
def Memory.unlist : Memory → Nat → Memory
  | [], _ => []
  | (b, v) :: rest, a => if b = a then Memory.unlist rest a else (b, v) :: Memory.unlist rest a

/-- A cell put before the first listed cell of a higher address. -/
def Memory.insert : Memory → Nat → Byte → Memory
  | [], a, v => [(a, v)]
  | (b, u) :: rest, a, v => if a < b then (a, v) :: (b, u) :: rest else (b, u) :: Memory.insert rest a v

/-- The byte at an address replaced (R41, R55); a value that an unlisted address reads as is not listed. -/
def Memory.write (m : Memory) (a : Nat) (v : Byte) : Memory :=
  if v = Memory.unlisted a then Memory.unlist m a else Memory.insert (Memory.unlist m a) a v

/-- The canonical form: addresses strictly rising and inside memory, no cell that holds what it would read
as unlisted. -/
abbrev Memory.wf (m : Memory) : Prop :=
  m.Pairwise (fun c d => c.1 < d.1) ∧ ∀ c ∈ m, c.1 < Config.memSize ∧ c.2 ≠ Memory.unlisted c.1

/-- The bytes at ascending addresses (R46). -/
def Memory.readBytes (m : Memory) : Nat → Nat → List Byte
  | _, 0 => []
  | a, n + 1 => m.read a :: Memory.readBytes m (a + 1) n

/-- Bytes written at ascending addresses (R46). -/
def Memory.writeBytes (m : Memory) : Nat → List Byte → Memory
  | _, [] => m
  | a, b :: bs => Memory.writeBytes (m.write a b) (a + 1) bs

/-- The range check of R46: the lowest address of `[a, a + n)` outside memory, if there is one. The sum
does not wrap (R42). -/
def firstOutside (a n : Nat) : Option Nat :=
  if 0 < n ∧ Config.memSize ≤ a + n - 1 then some (max a Config.memSize) else none

/-- `MemRead` over a range: the range is checked before any access (R41, R46). -/
def Memory.readBlock (m : Memory) (a n : Nat) : Except Nat (List Byte) :=
  match firstOutside a n with
  | some bad => .error bad
  | none => .ok (m.readBytes a n)

/-- `MemWrite` over a range: the range is checked before any access (R41, R46). -/
def Memory.writeBlock (m : Memory) (a : Nat) (bytes : List Byte) : Except Nat Memory :=
  match firstOutside a bytes.length with
  | some bad => .error bad
  | none => .ok (m.writeBytes a bytes)

/-- `MemRead(addr, 1)` (R41). -/
def Memory.memRead (m : Memory) (a : Nat) : Except Nat Byte :=
  if Config.memSize ≤ a then .error a else .ok (m.read a)

/-- `MemWrite(addr, 1, v)` (R41). -/
def Memory.memWrite (m : Memory) (a : Nat) (v : Byte) : Except Nat Memory :=
  if Config.memSize ≤ a then .error a else .ok (m.write a v)

/-! ### Registers (spec/10_state.md) -/

/-- VF, the register that holds the flag (R11). -/
def VF : Reg := 15

/-- `V[x]` (R8, R10). -/
def State.getV (s : State) (x : Reg) : Byte := s.v[x]
/-- `V[x] <- b` (R8, R10). -/
def State.setV (s : State) (x : Reg) (b : Byte) : State := { s with v := s.v.set x b }
/-- `I <- w` (R13). -/
def State.setI (s : State) (w : Word) : State := { s with i := w }
/-- `DT <- b` (R19). -/
def State.setDT (s : State) (b : Byte) : State := { s with dt := b }
/-- `ST <- b` (R19). -/
def State.setST (s : State) (b : Byte) : State := { s with st := b }
/-- The frame buffer replaced (R23). -/
def State.setFB (s : State) (fb : Screen) : State := { s with fb := fb }
/-- The memory replaced (R23). -/
def State.setMem (s : State) (m : Memory) : State := { s with mem := m }
/-- `KEY[k] <- b`, which only the host does (R20, R187). -/
def State.setKey (s : State) (k : Reg) (b : Bool) : State := { s with key := s.key.set k b }

/-- The events to come replaced (R183; log 5). -/
def State.setSchedule (s : State) (es : List HostEvent) : State := { s with schedule := es }

/-- Registers from `k` upward replaced by bytes, ascending (R125). -/
def writeRegs (v : Vector Byte 16) : Nat → List Byte → Vector Byte 16
  | _, [] => v
  | k, b :: bs => writeRegs (v.setIfInBounds k b) (k + 1) bs

/-- `V[0]`, `V[1]`, … replaced by bytes (R125). -/
def State.setRegs (s : State) (bytes : List Byte) : State := { s with v := writeRegs s.v 0 bytes }

/-- `V[0]` to `V[x]` inclusive (R124). -/
def State.regsUpTo (s : State) (x : Reg) : List Byte := s.v.toList.take (x.val + 1)

/-! ### The call stack (R14) -/

/-- `push(a)`: nothing when all 16 entries are in use. -/
def State.push (s : State) (a : Word) : Option State :=
  if h : s.sp.val < 16 then
    some { s with stack := s.stack.set s.sp.val a, sp := ⟨s.sp.val + 1, by omega⟩ }
  else none

/-- `pop()`: the popped value and the state after it; nothing when the stack is empty. -/
def State.pop (s : State) : Option (Word × State) :=
  if h : 0 < s.sp.val then
    some (s.stack[s.sp.val - 1], { s with sp := ⟨s.sp.val - 1, by omega⟩ })
  else none

/-! ### The random source (R156) -/

/-- `Random()`: the byte that `RandomSource` delivers at this use, a free value. -/
def State.randomByte (s : State) : Byte := Config.randomByte s.draws
/-- One byte of `RandomSource` consumed. -/
def State.drawn (s : State) : State := { s with draws := s.draws + 1 }

/-! ### The outcome of an instruction and its commit to `PC` (R68) -/

/-- The outcomes of R8 and R68. -/
inductive Flow where
  | next
  | skip
  | jump (target : Word)
  | retry
deriving DecidableEq, Repr

/-- The new `PC` of an outcome; `PC` is not masked (R68, R16). -/
def Flow.target (f : Flow) (pc : Word) : Word :=
  match f with
  | .next => pc + 2
  | .skip => pc + 4
  | .jump t => t
  | .retry => pc

/-- The commit of an outcome: the only place where an instruction writes `PC` (R68, R206). -/
def State.commit (s : State) (f : Flow) : State := { s with pc := f.target s.pc }

/-- An instruction that ends without a fault, with its outcome. -/
def finish (f : Flow) (s : State) : Host.Outcome State Fault Refusal := .next (s.commit f)

/-! ### Taking a fault (R177) -/

/-- The code of a fault cause (R170). -/
def FaultCause.code : FaultCause → BitVec 3
  | .outOfBoundsMemoryAccess => 1
  | .invalidRegisterIndex => 2
  | .stackOverflow => 3
  | .stackUnderflow => 4
  | .unknownOpcode => 5
  | .invalidKeyIndex => 6

/-- Fault entry: the latch is written and nothing else changes (R177, R178). There is no handler, and no
return but `reset` (R180). -/
def State.raise (s : State) (c : FaultCause) (info : Word) : State :=
  { s with latch := { halted := true, code := c.code, pc := s.pc, info := info } }

/-- An instruction, or a fetch or decode, that raises a fault: a next state with the latch written. -/
def trap (c : FaultCause) (info : Word) (s : State) : Host.Outcome State Fault Refusal :=
  .next (s.raise c info)

/-- OutOfBoundsMemoryAccess at an address; `FAULT_INFO` is the address, which fits 16 bits (R170, R171). -/
def trapOutside (bad : Nat) (s : State) : Host.Outcome State Fault Refusal :=
  trap .outOfBoundsMemoryAccess (BitVec.ofNat 16 bad) s

end Sys2Proof.Machine
end

