-- ==== Sys2Proof/Machine/Flags.lean ====
section
/-! DEFINITION. Every flag computation (spec/40_arithmetic.md R80, R81). Each gives a result byte and the flag
that goes with it: operands are read as integers, the exact result is taken, and it is narrowed at the end. -/

namespace Sys2Proof.Machine

/-- A flag as a whole byte, 0x00 or 0x01 (R11). -/
def flagByte (b : Bool) : Byte := if b then 1 else 0

/-- `(a + b) mod 256` and the carry `a + b > 255` (R81, R88). -/
def addWithCarry (a b : Byte) : Byte × Bool :=
  (BitVec.ofNat 8 (a.toNat + b.toNat), decide (255 < a.toNat + b.toNat))

/-- `(a - b) mod 256` and NOT borrow, `a ≥ b` (R81, R89). -/
def subWithNotBorrow (a b : Byte) : Byte × Bool :=
  (BitVec.ofInt 8 ((a.toNat : Int) - (b.toNat : Int)), decide (b.toNat ≤ a.toNat))

/-- One bit to the right, zero in; the flag is the old bit 0 (R81, R90). -/
def shiftRight (a : Byte) : Byte × Bool := (BitVec.ofNat 8 (a.toNat / 2), a.getLsbD 0)

/-- One bit to the left, zero in; the flag is the old bit 7 (R81, R92). -/
def shiftLeft (a : Byte) : Byte × Bool := (BitVec.ofNat 8 (a.toNat * 2), a.getLsbD 7)

/-- The write order of a flag-defining instruction: the result to `V[x]` first, the flag to VF last, so
that the flag stays when x = 0xF (R80, the spec's D6; log 9). -/
def State.setResultAndFlag (s : State) (x : Reg) (r : Byte × Bool) : State :=
  (s.setV x r.1).setV VF (flagByte r.2)

end Sys2Proof.Machine
end

