-- ==== Sys2Proof/Machine/Operands.lean ====
section
/-! DEFINITION. Every operand form (spec/30_encoding.md R63, spec/42_memory_ops.md R126). -/

namespace Sys2Proof.Machine

/-- `nnn` as a 16-bit address, the top four bits zero (R63). -/
def addressOf (nnn : Addr) : Word := nnn.setWidth 16

/-- A byte read as a 16-bit value (R8, `zext`). -/
def widen (b : Byte) : Word := b.setWidth 16

/-- `n` as a row count, 0 to 15 (R63). -/
def rowCount (n : Nibble) : Nat := n.toNat

/-- `x` as the count of registers that `STM` and `LDM` move, `x + 1` (R124, R125). -/
def registerCount (x : Reg) : Nat := x.val + 1

/-- The effective address `I + k`, an unbounded integer that does not wrap (R42, R126). -/
def State.effectiveAddress (s : State) (k : Nat) : Nat := s.i.toNat + k

/-- `nnn + V0`, not reduced modulo 4096 (R104). -/
def State.indexedTarget (s : State) (nnn : Addr) : Word := addressOf nnn + widen (s.getV 0)

/-- The address of the glyph of a byte, five bytes a glyph, with no mask (R122). -/
def glyphAddress (b : Byte) : Word := BitVec.ofNat 16 (b.toNat * 5)

/-- The key that a byte names, if it names one (R153). -/
def keyIndex (b : Byte) : Option Reg := if h : b.toNat < 16 then some ⟨b.toNat, h⟩ else none

/-- `KEY[k]` (R20). -/
def State.keyPressed (s : State) (k : Reg) : Bool := s.key[k]

/-- The least key that is pressed (R155, the spec's D13; log 15). -/
def lowestPressed (keys : Vector Bool 16) : Option Reg := (List.finRange 16).find? fun k => keys[k]

/-- The three decimal digits of a byte, most significant first (R123, the spec's D9; log 12). -/
def decimalDigits (b : Byte) : List Byte :=
  [BitVec.ofNat 8 (b.toNat / 100), BitVec.ofNat 8 (b.toNat / 10 % 10), BitVec.ofNat 8 (b.toNat % 10)]

end Sys2Proof.Machine
end

