-- ==== Sys2Proof/Machine/Arith.lean ====
section
/-! DEFINITION. Register load, arithmetic and logic (spec/40_arithmetic.md R82 to R92). Operands are sampled
from the state before the step (R80); every outcome is `Next`. -/

namespace Sys2Proof.Machine

/-- `6xnn`: `V[x] <- nn` (R82). -/
def execLdi (x : Reg) (nn : Byte) (s : State) : Host.Outcome State Fault Refusal :=
  finish .next (s.setV x nn)

/-- `7xnn`: `V[x] <- (V[x] + nn) mod 256`, no flag (R83). -/
def execAddi (x : Reg) (nn : Byte) (s : State) : Host.Outcome State Fault Refusal :=
  finish .next (s.setV x (addWithCarry (s.getV x) nn).1)

/-- `8xy0`: `V[x] <- V[y]` (R84). -/
def execMov (x y : Reg) (s : State) : Host.Outcome State Fault Refusal :=
  finish .next (s.setV x (s.getV y))

/-- `8xy1`: `V[x] <- V[x] OR V[y]`, no flag (R85). -/
def execOr (x y : Reg) (s : State) : Host.Outcome State Fault Refusal :=
  finish .next (s.setV x (s.getV x ||| s.getV y))

/-- `8xy2`: `V[x] <- V[x] AND V[y]`, no flag (R86). -/
def execAnd (x y : Reg) (s : State) : Host.Outcome State Fault Refusal :=
  finish .next (s.setV x (s.getV x &&& s.getV y))

/-- `8xy3`: `V[x] <- V[x] XOR V[y]`, no flag (R87). -/
def execXor (x y : Reg) (s : State) : Host.Outcome State Fault Refusal :=
  finish .next (s.setV x (s.getV x ^^^ s.getV y))

/-- `8xy4`: `V[x] + V[y]`, VF the carry (R88). -/
def execAdd (x y : Reg) (s : State) : Host.Outcome State Fault Refusal :=
  finish .next (s.setResultAndFlag x (addWithCarry (s.getV x) (s.getV y)))

/-- `8xy5`: `V[x] - V[y]`, VF NOT borrow (R89). -/
def execSub (x y : Reg) (s : State) : Host.Outcome State Fault Refusal :=
  finish .next (s.setResultAndFlag x (subWithNotBorrow (s.getV x) (s.getV y)))

/-- `8xy6`: `V[x]` one bit to the right, VF the bit shifted out; `y` is not used (R90). -/
def execShr (x : Reg) (s : State) : Host.Outcome State Fault Refusal :=
  finish .next (s.setResultAndFlag x (shiftRight (s.getV x)))

/-- `8xy7`: `V[y] - V[x]` into `V[x]`, VF NOT borrow (R91). -/
def execSubn (x y : Reg) (s : State) : Host.Outcome State Fault Refusal :=
  finish .next (s.setResultAndFlag x (subWithNotBorrow (s.getV y) (s.getV x)))

/-- `8xyE`: `V[x]` one bit to the left, VF the bit shifted out; `y` is not used (R92). -/
def execShl (x : Reg) (s : State) : Host.Outcome State Fault Refusal :=
  finish .next (s.setResultAndFlag x (shiftLeft (s.getV x)))

end Sys2Proof.Machine
end

