-- ==== Sys2Proof/Machine/Control.lean ====
section
/-! DEFINITION. Control transfer (spec/41_control_flow.md R100 to R108). No instruction here writes a general
register or touches memory; a target is used as it is, not aligned, masked or checked (R100). -/

namespace Sys2Proof.Machine

/-- `1nnn`: `PC <- nnn` (R101). -/
def execJp (nnn : Addr) (s : State) : Host.Outcome State Fault Refusal :=
  finish (.jump (addressOf nnn)) s

/-- `2nnn`: the address of the following instruction is pushed, `PC <- nnn`; StackOverflow(nnn) when 16
entries are in use (R102, R173; log 8). -/
def execCall (nnn : Addr) (s : State) : Host.Outcome State Fault Refusal :=
  match s.push (s.pc + 2) with
  | some t => finish (.jump (addressOf nnn)) t
  | none => trap .stackOverflow (addressOf nnn) s

/-- `00EE`: `PC <- pop()`; StackUnderflow(0) when the stack is empty (R103, R174). -/
def execRet (s : State) : Host.Outcome State Fault Refusal :=
  match s.pop with
  | some (a, t) => finish (.jump a) t
  | none => trap .stackUnderflow 0 s

/-- `Bnnn`: `PC <- nnn + V0` (R104). -/
def execJpv0 (nnn : Addr) (s : State) : Host.Outcome State Fault Refusal :=
  finish (.jump (s.indexedTarget nnn)) s

/-- The outcome of a conditional skip (R16). -/
def skipIf (c : Bool) : Flow := if c then .skip else .next

/-- `3xnn`: skip if `V[x] = nn` (R105). -/
def execSe (x : Reg) (nn : Byte) (s : State) : Host.Outcome State Fault Refusal :=
  finish (skipIf (s.getV x == nn)) s

/-- `4xnn`: skip if `V[x] ≠ nn` (R106). -/
def execSne (x : Reg) (nn : Byte) (s : State) : Host.Outcome State Fault Refusal :=
  finish (skipIf (s.getV x != nn)) s

/-- `5xy0`: skip if `V[x] = V[y]` (R107). -/
def execSer (x y : Reg) (s : State) : Host.Outcome State Fault Refusal :=
  finish (skipIf (s.getV x == s.getV y)) s

/-- `9xy0`: skip if `V[x] ≠ V[y]` (R108). -/
def execSner (x y : Reg) (s : State) : Host.Outcome State Fault Refusal :=
  finish (skipIf (s.getV x != s.getV y)) s

end Sys2Proof.Machine
end

