-- ==== Sys2Proof/Machine/Display.lean ====
section
/-! DEFINITION. Frame buffer and sprite drawing (spec/43_display.md R140 to R146). -/

namespace Sys2Proof.Machine

/-- `FB[k]`: column `k mod 64` of row `k / 64` (R142); there is no cell from 2048 on. -/
def Screen.lit (fb : Screen) (k : Nat) : Bool :=
  if h : k / 64 < 32 then fb[k / 64].getLsbD (k % 64) else false

/-- `FB[k] <- FB[k] XOR 1` (R141). -/
def Screen.flip (fb : Screen) (k : Nat) : Screen :=
  if h : k / 64 < 32 then fb.set (k / 64) (fb[k / 64] ^^^ (1#64 <<< (k % 64))) else fb

/-- The cell of sprite column `c` and sprite row `r` drawn at (`vx`, `vy`): each pixel wraps on both axes
(R143; log 14). -/
def spriteCell (vx vy : Byte) (r c : Nat) : Nat :=
  (vx.toNat + c) % Config.columns + (vy.toNat + r) % Config.rows * Config.columns

/-- The pixel of sprite column `c` of a row byte: bit `7 - c`, the leftmost is bit 7 (R144; log 13). -/
def spriteBit (b : Byte) (c : Nat) : Bool := b.getLsbD (7 - c)

/-- A frame buffer being drawn on, and whether a lit pixel has been flipped so far. -/
abbrev Drawing := Screen × Bool

/-- One cell flipped; a collision if it was lit (R141, R145). -/
def flipCell (k : Nat) (d : Drawing) : Drawing := (Screen.flip d.1 k, d.2 || Screen.lit d.1 k)

/-- The given columns of one sprite row, in their order (R141). -/
def drawColumns (vx vy : Byte) (r : Nat) (b : Byte) : List Nat → Drawing → Drawing
  | [], d => d
  | c :: cs, d =>
    drawColumns vx vy r b cs (if spriteBit b c then flipCell (spriteCell vx vy r c) d else d)

/-- The rows of a sprite, the first of them row `r` (R141). -/
def drawRows (vx vy : Byte) : Nat → List Byte → Drawing → Drawing
  | _, [], d => d
  | r, b :: bs, d => drawRows vx vy (r + 1) bs (drawColumns vx vy r b [0, 1, 2, 3, 4, 5, 6, 7] d)

/-- `00E0`: every cell 0 (R140). -/
def execCls (s : State) : Host.Outcome State Fault Refusal :=
  finish .next (s.setFB Screen.dark)

/-- `Dxyn`: an n-row sprite from `I`, drawn by XOR at (`V[x]`, `V[y]`), VF the collision flag; n = 0 reads no
memory and clears VF (R141; log 16). -/
def execDrw (x y : Reg) (n : Nibble) (s : State) : Host.Outcome State Fault Refusal :=
  match s.mem.readBlock (s.effectiveAddress 0) (rowCount n) with
  | .ok bytes =>
    let d := drawRows (s.getV x) (s.getV y) 0 bytes (s.fb, false)
    finish .next ((s.setFB d.1).setV VF (flagByte d.2))
  | .error bad => trapOutside bad s

end Sys2Proof.Machine
end

