-- ==== Sys2Proof/Machine/Io.lean ====
section
/-! DEFINITION. Timers, keypad and random number (spec/44_timer_keypad_random.md R150 to R156). -/

namespace Sys2Proof.Machine

/-- `Fx07`: `V[x] <- DT` (R150). -/
def execGdt (x : Reg) (s : State) : Host.Outcome State Fault Refusal :=
  finish .next (s.setV x s.dt)

/-- `Fx15`: `DT <- V[x]` (R151). -/
def execSdt (x : Reg) (s : State) : Host.Outcome State Fault Refusal :=
  finish .next (s.setDT (s.getV x))

/-- `Fx18`: `ST <- V[x]` (R152). -/
def execSst (x : Reg) (s : State) : Host.Outcome State Fault Refusal :=
  finish .next (s.setST (s.getV x))

/-- `Ex9E`: skip if the key that `V[x]` names is pressed; InvalidKeyIndex above 15 (R153, R176; log 17). -/
def execSkp (x : Reg) (s : State) : Host.Outcome State Fault Refusal :=
  match keyIndex (s.getV x) with
  | some k => finish (skipIf (s.keyPressed k)) s
  | none => trap .invalidKeyIndex (widen (s.getV x)) s

/-- `ExA1`: skip if the key that `V[x]` names is not pressed; InvalidKeyIndex above 15 (R154, R176; log 17). -/
def execSknp (x : Reg) (s : State) : Host.Outcome State Fault Refusal :=
  match keyIndex (s.getV x) with
  | some k => finish (skipIf (!s.keyPressed k)) s
  | none => trap .invalidKeyIndex (widen (s.getV x)) s

/-- `Fx0A`: with no key pressed a retry that changes nothing; else the least pressed key to `V[x]` (R155;
log 15). -/
def execWkey (x : Reg) (s : State) : Host.Outcome State Fault Refusal :=
  match lowestPressed s.key with
  | some k => finish .next (s.setV x (BitVec.ofNat 8 k.val))
  | none => finish .retry s

/-- A drawn byte masked by the immediate (R156). -/
def maskDraw (draw nn : Byte) : Byte := draw &&& nn

/-- `Cxnn`: one byte is drawn from `RandomSource`, `V[x] <- r AND nn`; the draw is consumed whatever `nn` is
(R156; log 4). -/
def execRnd (x : Reg) (nn : Byte) (s : State) : Host.Outcome State Fault Refusal :=
  finish .next (s.drawn.setV x (maskDraw s.randomByte nn))

end Sys2Proof.Machine
end

