-- ==== Sys2Proof/Machine/MemoryOps.lean ====
section
/-! DEFINITION. Address register, BCD, block store and load (spec/42_memory_ops.md R120 to R126). A memory
instruction checks its whole range before any access (R46), so a fault leaves no partial effect (R178). -/

namespace Sys2Proof.Machine

/-- `Annn`: `I <- nnn` (R120). -/
def execLda (nnn : Addr) (s : State) : Host.Outcome State Fault Refusal :=
  finish .next (s.setI (addressOf nnn))

/-- `Fx1E`: `I <- (I + V[x]) mod 65536`, no flag (R121; log 10). -/
def execAdda (x : Reg) (s : State) : Host.Outcome State Fault Refusal :=
  finish .next (s.setI (s.i + widen (s.getV x)))

/-- `Fx29`: `I <- V[x] × 5` (R122). -/
def execFont (x : Reg) (s : State) : Host.Outcome State Fault Refusal :=
  finish .next (s.setI (glyphAddress (s.getV x)))

/-- `Fx33`: the decimal digits of `V[x]` to `I`, `I + 1`, `I + 2` (R123). -/
def execBcd (x : Reg) (s : State) : Host.Outcome State Fault Refusal :=
  match s.mem.writeBlock (s.effectiveAddress 0) (decimalDigits (s.getV x)) with
  | .ok m => finish .next (s.setMem m)
  | .error bad => trapOutside bad s

/-- `Fx55`: `V[0]` to `V[x]` stored from `I` upward; `I` is unchanged (R124; log 11). -/
def execStm (x : Reg) (s : State) : Host.Outcome State Fault Refusal :=
  match s.mem.writeBlock (s.effectiveAddress 0) (s.regsUpTo x) with
  | .ok m => finish .next (s.setMem m)
  | .error bad => trapOutside bad s

/-- `Fx65`: `V[0]` to `V[x]` loaded from `I` upward; `I` is unchanged (R125; log 11). -/
def execLdm (x : Reg) (s : State) : Host.Outcome State Fault Refusal :=
  match s.mem.readBlock (s.effectiveAddress 0) (registerCount x) with
  | .ok bytes => finish .next (s.setRegs bytes)
  | .error bad => trapOutside bad s

end Sys2Proof.Machine
end

