-- ==== Sys2Proof/WellFormed.lean ====
section
/-! DEFINITION. What is well formed: an instruction word (R64, R66) and a host load (R53).

An `Instr` needs no check of its own: its fields have exactly the widths of R61, so there is no ill-formed
instruction. What can be ill formed is a WORD, and a LOAD. The checks here are written from the mask and
match columns of R64, apart from the decoder, which follows R65; an obligation states that the two agree. -/

namespace Sys2Proof

/-- A row of the opcode map: a word `w` selects it iff `w AND mask = match` (R64). -/
structure OpcodeRow where
  mnemonic : String
  mask : Word
  pattern : Word
deriving DecidableEq, Repr

/-- `w` selects the row (R64). -/
def OpcodeRow.selects (r : OpcodeRow) (w : Word) : Bool := w &&& r.mask == r.pattern

/-- Rows 1 to 9 of R64. -/
def rowsOneToNine : List OpcodeRow := [
  { mnemonic := "CLS", mask := 0xFFFF, pattern := 0x00E0 },
  { mnemonic := "RET", mask := 0xFFFF, pattern := 0x00EE },
  { mnemonic := "JP", mask := 0xF000, pattern := 0x1000 },
  { mnemonic := "CALL", mask := 0xF000, pattern := 0x2000 },
  { mnemonic := "SE", mask := 0xF000, pattern := 0x3000 },
  { mnemonic := "SNE", mask := 0xF000, pattern := 0x4000 },
  { mnemonic := "SER", mask := 0xF00F, pattern := 0x5000 },
  { mnemonic := "LDI", mask := 0xF000, pattern := 0x6000 },
  { mnemonic := "ADDI", mask := 0xF000, pattern := 0x7000 }]

/-- Rows 10 to 19 of R64. -/
def rowsTenToNineteen : List OpcodeRow := [
  { mnemonic := "MOV", mask := 0xF00F, pattern := 0x8000 },
  { mnemonic := "OR", mask := 0xF00F, pattern := 0x8001 },
  { mnemonic := "AND", mask := 0xF00F, pattern := 0x8002 },
  { mnemonic := "XOR", mask := 0xF00F, pattern := 0x8003 },
  { mnemonic := "ADD", mask := 0xF00F, pattern := 0x8004 },
  { mnemonic := "SUB", mask := 0xF00F, pattern := 0x8005 },
  { mnemonic := "SHR", mask := 0xF00F, pattern := 0x8006 },
  { mnemonic := "SUBN", mask := 0xF00F, pattern := 0x8007 },
  { mnemonic := "SHL", mask := 0xF00F, pattern := 0x800E },
  { mnemonic := "SNER", mask := 0xF00F, pattern := 0x9000 }]

/-- Rows 20 to 25 of R64. -/
def rowsTwentyToTwentyFive : List OpcodeRow := [
  { mnemonic := "LDA", mask := 0xF000, pattern := 0xA000 },
  { mnemonic := "JPV0", mask := 0xF000, pattern := 0xB000 },
  { mnemonic := "RND", mask := 0xF000, pattern := 0xC000 },
  { mnemonic := "DRW", mask := 0xF000, pattern := 0xD000 },
  { mnemonic := "SKP", mask := 0xF0FF, pattern := 0xE09E },
  { mnemonic := "SKNP", mask := 0xF0FF, pattern := 0xE0A1 }]

/-- Rows 26 to 34 of R64. -/
def rowsTwentySixToThirtyFour : List OpcodeRow := [
  { mnemonic := "GDT", mask := 0xF0FF, pattern := 0xF007 },
  { mnemonic := "WKEY", mask := 0xF0FF, pattern := 0xF00A },
  { mnemonic := "SDT", mask := 0xF0FF, pattern := 0xF015 },
  { mnemonic := "SST", mask := 0xF0FF, pattern := 0xF018 },
  { mnemonic := "ADDA", mask := 0xF0FF, pattern := 0xF01E },
  { mnemonic := "FONT", mask := 0xF0FF, pattern := 0xF029 },
  { mnemonic := "BCD", mask := 0xF0FF, pattern := 0xF033 },
  { mnemonic := "STM", mask := 0xF0FF, pattern := 0xF055 },
  { mnemonic := "LDM", mask := 0xF0FF, pattern := 0xF065 }]

/-- The complete opcode map (R64). -/
def opcodeRows : List OpcodeRow :=
  rowsOneToNine ++ rowsTenToNineteen ++
  rowsTwentyToTwentyFive ++ rowsTwentySixToThirtyFour

/-- A well-formed instruction word: it selects some row (R64); any other word is illegal (R66). -/
def wellFormedWord (w : Word) : Bool := opcodeRows.any fun r => r.selects w

/-- A well-formed load: it fails if `offset + len(bytes) > 4096` (R53). -/
def wellFormedLoad (offset : Nat) (bytes : List Byte) : Bool :=
  decide (offset + bytes.length ≤ Config.memSize)

end Sys2Proof
end

