-- ==== Sys2Proof/Machine/Events.lean ====
section
/-! DEFINITION. The events other than `step`, and what the host reads (spec/60_exceptions.md R183 to R190,
spec/20_memory.md R53, spec/70_reset_and_hazards.md R200). -/

namespace Sys2Proof.Machine

/-- A timer after one tick: one less, and never below 0 (R184). -/
def countDown (t : Byte) : Byte := if 0 < t.toNat then t - 1 else t

/-- `tick`: both timers are tested and decremented, whatever the core's condition (R184, R186; log 18). -/
def State.tick (s : State) : State := (s.setDT (countDown s.dt)).setST (countDown s.st)

/-- What `load` reports to the host (R53). -/
inductive LoadResult where
  | accepted
  | outOfBoundsMemoryAccess
deriving DecidableEq, Repr

/-- `load(offset, bytes)`: the block is written, or nothing is and the error goes to the host; the latch and
every register stay as they are (R53; log 19). -/
def State.load (s : State) (offset : Nat) (bytes : List Byte) : LoadResult × State :=
  if wellFormedLoad offset bytes then (.accepted, s.setMem (s.mem.writeBytes offset bytes))
  else (.outOfBoundsMemoryAccess, s)

/-- `reset`: every piece of state at its reset value (R200, R25; log 20). The random source and the events to
come are outside the core and stay (logs 4, 5). -/
def State.resetEvent (s : State) : State :=
  { State.reset with draws := s.draws, schedule := s.schedule }

/-- The tone output `ST > 0` (R189). -/
def State.tone (s : State) : Bool := decide (0 < s.st.toNat)

/-- Pixel (px, py) as the renderer reads it (R142, R188). -/
def State.pixel (s : State) (px py : Nat) : Bool := Screen.lit s.fb (px + py * Config.columns)

end Sys2Proof.Machine
end

