-- ==== Sys2Proof/Decode.lean ====
section
/-! DEFINITION. Decoding (spec/30_encoding.md R61, R65, R66) and, after it, encoding (R62, R64). -/

namespace Sys2Proof

/-! ### The fields of an instruction word (R61) -/

/-- `op = w[15:12]` -/
def fieldOp (w : Word) : Nibble := w.extractLsb' 12 4
/-- `x = w[11:8]` -/
def fieldX (w : Word) : Reg := (w.extractLsb' 8 4).toFin
/-- `y = w[7:4]` -/
def fieldY (w : Word) : Reg := (w.extractLsb' 4 4).toFin
/-- `n = w[3:0]` -/
def fieldN (w : Word) : Nibble := w.extractLsb' 0 4
/-- `nn = w[7:0]` -/
def fieldNN (w : Word) : Byte := w.extractLsb' 0 8
/-- `nnn = w[11:0]` -/
def fieldNNN (w : Word) : Addr := w.extractLsb' 0 12

/-! ### The decode algorithm (R65) -/

/-- Family 0: all sixteen bits are matched (R65). -/
def decodeFamily0 (w : Word) : Option Instr :=
  if w = 0x00E0#16 then some .cls else if w = 0x00EE#16 then some .ret else none

/-- Family 8: the discriminator is `n` (R65). -/
def decodeFamily8 (x y : Reg) : Nat → Option Instr
  | 0x0 => some (.mov x y)
  | 0x1 => some (.or x y)
  | 0x2 => some (.and x y)
  | 0x3 => some (.xor x y)
  | 0x4 => some (.add x y)
  | 0x5 => some (.sub x y)
  | 0x6 => some (.shr x y)
  | 0x7 => some (.subn x y)
  | 0xE => some (.shl x y)
  | _ => none

/-- Family E: the discriminator is `nn` (R65). -/
def decodeFamilyE (x : Reg) : Nat → Option Instr
  | 0x9E => some (.skp x)
  | 0xA1 => some (.sknp x)
  | _ => none

/-- Family F: the discriminator is `nn` (R65). -/
def decodeFamilyF (x : Reg) : Nat → Option Instr
  | 0x07 => some (.gdt x)
  | 0x0A => some (.wkey x)
  | 0x15 => some (.sdt x)
  | 0x18 => some (.sst x)
  | 0x1E => some (.adda x)
  | 0x29 => some (.font x)
  | 0x33 => some (.bcd x)
  | 0x55 => some (.stm x)
  | 0x65 => some (.ldm x)
  | _ => none

/-- `Decode(w)`, total on all 65536 words; `none` is the spec's `Unknown` (R65, R66). -/
def decodeWord (w : Word) : Option Instr :=
  match (fieldOp w).toNat with
  | 0x0 => decodeFamily0 w
  | 0x1 => some (.jp (fieldNNN w))
  | 0x2 => some (.call (fieldNNN w))
  | 0x3 => some (.se (fieldX w) (fieldNN w))
  | 0x4 => some (.sne (fieldX w) (fieldNN w))
  | 0x5 => if fieldN w = 0 then some (.ser (fieldX w) (fieldY w)) else none
  | 0x6 => some (.ldi (fieldX w) (fieldNN w))
  | 0x7 => some (.addi (fieldX w) (fieldNN w))
  | 0x8 => decodeFamily8 (fieldX w) (fieldY w) (fieldN w).toNat
  | 0x9 => if fieldN w = 0 then some (.sner (fieldX w) (fieldY w)) else none
  | 0xA => some (.lda (fieldNNN w))
  | 0xB => some (.jpv0 (fieldNNN w))
  | 0xC => some (.rnd (fieldX w) (fieldNN w))
  | 0xD => some (.drw (fieldX w) (fieldY w) (fieldN w))
  | 0xE => decodeFamilyE (fieldX w) (fieldNN w).toNat
  | 0xF => decodeFamilyF (fieldX w) (fieldNN w).toNat
  | _ => none

/-- The instruction word of two bytes in memory order: the first is the high byte (R43). -/
def bigEndian (hi lo : Byte) : Word := hi ++ lo

/-- Why bytes do not decode. -/
inductive DecodeError where
  /-- fewer than the two bytes of an instruction (R60) -/
  | truncated
  /-- the word matches no row of R64 (R66) -/
  | unknownOpcode (w : Word)
deriving DecidableEq, Repr

/-- Decoding from bytes in memory order, total on any bytes: the instruction and the bytes after it (R60,
R43, R65). -/
def decodeBytes : List Byte → Except DecodeError (Instr × List Byte)
  | hi :: lo :: rest =>
    match decodeWord (bigEndian hi lo) with
    | some i => .ok (i, rest)
    | none => .error (.unknownOpcode (bigEndian hi lo))
  | _ => .error .truncated

/-! ### The encoder, from the formats of R62 and the codes of R64 -/

/-- The four bits of a register index. -/
def regBits (x : Reg) : Nibble := BitVec.ofFin x

/-- Format NNN: `op nnn` (R62). -/
def wordNNN (op : Nibble) (nnn : Addr) : Word := op ++ nnn

/-- Formats XNN and XDD: `op x nn`, where XDD's `nn` is the fixed discriminator (R62). -/
def wordXNN (op : Nibble) (x : Reg) (nn : Byte) : Word := op ++ regBits x ++ nn

/-- Formats XYN and XYD: `op x y n`, where XYD's `n` is the fixed discriminator (R62). -/
def wordXYN (op : Nibble) (x y : Reg) (n : Nibble) : Word := op ++ regBits x ++ regBits y ++ n

/-- The word of an instruction (R62, R64). -/
def encode : Instr → Word
  | .cls => 0x00E0
  | .ret => 0x00EE
  | .jp nnn => wordNNN 0x1 nnn
  | .call nnn => wordNNN 0x2 nnn
  | .se x nn => wordXNN 0x3 x nn
  | .sne x nn => wordXNN 0x4 x nn
  | .ser x y => wordXYN 0x5 x y 0x0
  | .ldi x nn => wordXNN 0x6 x nn
  | .addi x nn => wordXNN 0x7 x nn
  | .mov x y => wordXYN 0x8 x y 0x0
  | .or x y => wordXYN 0x8 x y 0x1
  | .and x y => wordXYN 0x8 x y 0x2
  | .xor x y => wordXYN 0x8 x y 0x3
  | .add x y => wordXYN 0x8 x y 0x4
  | .sub x y => wordXYN 0x8 x y 0x5
  | .shr x y => wordXYN 0x8 x y 0x6
  | .subn x y => wordXYN 0x8 x y 0x7
  | .shl x y => wordXYN 0x8 x y 0xE
  | .sner x y => wordXYN 0x9 x y 0x0
  | .lda nnn => wordNNN 0xA nnn
  | .jpv0 nnn => wordNNN 0xB nnn
  | .rnd x nn => wordXNN 0xC x nn
  | .drw x y n => wordXYN 0xD x y n
  | .skp x => wordXNN 0xE x 0x9E
  | .sknp x => wordXNN 0xE x 0xA1
  | .gdt x => wordXNN 0xF x 0x07
  | .wkey x => wordXNN 0xF x 0x0A
  | .sdt x => wordXNN 0xF x 0x15
  | .sst x => wordXNN 0xF x 0x18
  | .adda x => wordXNN 0xF x 0x1E
  | .font x => wordXNN 0xF x 0x29
  | .bcd x => wordXNN 0xF x 0x33
  | .stm x => wordXNN 0xF x 0x55
  | .ldm x => wordXNN 0xF x 0x65

/-- The high byte of a word, the one at the lower address (R43). -/
def highByte (w : Word) : Byte := w.extractLsb' 8 8
/-- The low byte of a word, the one at the higher address (R43). -/
def lowByte (w : Word) : Byte := w.extractLsb' 0 8

/-- A word's bytes as memory holds them (R43). -/
def wordBytes (w : Word) : List Byte := [highByte w, lowByte w]

/-! ### The host's numbering of an instruction's bits -/

/-- The word whose bits, numbered from the least significant, are the low `nbits` bits of `w`. An
instruction has 16 bits (R60), so bits from 16 on are no part of it. -/
def tableWord (nbits w : Nat) : Word := BitVec.ofNat 16 (w % 2 ^ nbits)

/-- What the decoder reads from the instruction whose bits are `w`, laid out in memory order. -/
def decodeTableWord (nbits w : Nat) : Option Instr :=
  match decodeBytes (wordBytes (tableWord nbits w)) with
  | .ok (i, _) => some i
  | .error _ => none

end Sys2Proof
end

