-- ==== Sys2Proof/Machine/Fetch.lean ====
section
/-! DEFINITION. Instruction fetch (spec/20_memory.md R43), and the state with a given instruction where the
next fetch finds it. -/

namespace Sys2Proof.Machine

/-- The fetch: the bytes at `PC` and `PC + 1`, the first the high byte, or the first address out of range; the
address does not wrap (R42, R43, R67). -/
def State.fetch (s : State) : Except Nat Word :=
  match s.mem.memRead s.pc.toNat with
  | .error bad => .error bad
  | .ok hi =>
    match s.mem.memRead (s.pc.toNat + 1) with
    | .error bad => .error bad
    | .ok lo => .ok (bigEndian hi lo)

/-- Where the host's next instruction is put: at `PC` where a fetch can succeed, else at the entry point. -/
def State.fetchPoint (s : State) : Word :=
  if s.pc.toNat + 1 < Config.memSize then s.pc else BitVec.ofNat 16 Config.entry

/-- The state with a word stored where the next event fetches it: no event comes before it, and a halted core
is running again, since a halted one fetches nothing (R180; log 7). -/
def State.placeWord (s : State) (w : Word) : State :=
  { s with
    mem := s.mem.writeBytes s.fetchPoint.toNat (wordBytes w)
    pc := s.fetchPoint
    latch := if s.latch.halted then FaultLatch.clear else s.latch
    schedule := [] }

end Sys2Proof.Machine
end

