-- ==== Sys2Proof/Machine/Cycle.lean ====
section
/-! DEFINITION. One event of the machine (spec/30_encoding.md R67, spec/60_exceptions.md R183). -/

namespace Sys2Proof.Machine

/-- The `step` event: nothing while halted; else fetch, decode and execute, each of which may raise a fault
(R67, R179, R180). -/
def instructionStep (s : State) : Host.Outcome State Fault Refusal :=
  if s.latch.halted then .next s
  else
    match s.fetch with
    | .error bad => trapOutside bad s
    | .ok w =>
      match decodeWord w with
      | some i => exec i s
      | none => trap .unknownOpcode w s

/-- One event, whole (R6, R56). -/
def deliver (e : HostEvent) (s : State) : Host.Outcome State Fault Refusal :=
  match e with
  | .step => instructionStep s
  | .tick => .next s.tick
  | .key k pressed => .next (s.setKey k pressed)
  | .load offset bytes => .next (s.load offset bytes).2
  | .reset => .next s.resetEvent

end Sys2Proof.Machine
end

