-- ==== Sys2Proof/Machine/Step.lean ====
section
/-! DEFINITION. One step of the machine: the next event of the schedule, or a `step` event where none is
listed (spec/00_scope.md R6, spec/60_exceptions.md R183; log 5). -/

namespace Sys2Proof.Machine

/-- One event of the machine. -/
def step (s : State) : Host.Outcome State Fault Refusal :=
  match s.schedule with
  | [] => instructionStep s
  | e :: rest => deliver e (s.setSchedule rest)

/-- `s` with the instruction whose bits are `w` where `step` fetches its next instruction, so that the very
next step runs it (log 7). -/
def State.withFetchWord (s : State) (nbits w : Nat) : State := s.placeWord (tableWord nbits w)

end Sys2Proof.Machine
end

