-- ==== Sys2Proof/Safety.lean ====
section
/-! DEFINITION. What claims speak of: a safe run, a final state, and the invariant of the machine. -/

namespace Sys2Proof.Machine

/-- The core is running: no fault since the last reset (R22, R180). -/
def State.running (s : State) : Prop := s.latch.halted = false

/-- `n` events in a row, up to the first stop. -/
def run : Nat → State → Host.Outcome State Fault Refusal
  | 0, s => .next s
  | n + 1, s =>
    match step s with
    | .next t => run n t
    | .fault r => .fault r
    | .refused r => .refused r

/-- A safe run of `n` events: each answers a next state, and the core is running before and after each. -/
def SafeFor : Nat → State → Prop
  | 0, s => s.running
  | n + 1, s => s.running ∧ ∃ t, step s = .next t ∧ SafeFor n t

/-- A final state: not halted, and the word at `PC` is a jump to `PC` itself (R211). It says nothing of the
timers, and the hardware does not stop. -/
def State.final (s : State) : Prop :=
  s.running ∧ s.pc.toNat ≤ 0xFFE ∧ s.fetch = .ok (wordNNN 0x1 (s.pc.setWidth 12))

/-- A fault latch as the machine leaves it: clear, or one of the five faults that can be raised, with the
address at which `PC` still stands (R22, R170, R177, R181). -/
def State.latchConsistent (s : State) : Prop :=
  (s.latch.halted = false → s.latch = FaultLatch.clear) ∧
  (s.latch.halted = true → s.latch.pc = s.pc ∧
    s.latch.code ∈ [FaultCause.outOfBoundsMemoryAccess, .stackOverflow, .stackUnderflow,
      .unknownOpcode, .invalidKeyIndex].map FaultCause.code)

/-- The invariant: memory is in its canonical form; `PC` is at most 0x10FE (R16); every return address in use
is in 0x002 to 0x1000 (R103); the latch is as the machine leaves it. -/
structure State.Inv (s : State) : Prop where
  memory : s.mem.wf
  pcBound : s.pc.toNat ≤ 0x10FE
  returnAddresses : ∀ k (h : k < 16), k < s.sp.val →
    0x002 ≤ s.stack[k].toNat ∧ s.stack[k].toNat ≤ 0x1000
  latch : s.latchConsistent

end Sys2Proof.Machine
end

