-- ==== Sys2Proof/Certificates/Slice0/Obligations.lean ====
section
/-! DEFINITION. The statements for the provers. The words they are written in come first: the parts of the
state that an instruction may leave as they were, and how the six faults arise, written from the spec's own
table and not from the meanings.

Where a statement rests on one of the spec's own decisions (D<n> of spec/92_eei_decisions.md) its docstring
says so and its basis is 'derived'. -/

namespace Sys2Proof.Spec

open Sys2Proof.Machine

/-- The parts of the state, for frames. -/
inductive Part where
  | registers | index | pc | stack | delayTimer | soundTimer | screen | memory | keys | latch
  | draws | schedule
deriving DecidableEq, Repr

/-- A part of the state is in `t` as it was in `s`; memory is compared by reading every address. -/
def Part.same : Part → State → State → Prop
  | .registers, s, t => ∀ r, t.getV r = s.getV r
  | .index, s, t => t.i = s.i
  | .pc, s, t => t.pc = s.pc
  | .stack, s, t => t.sp = s.sp ∧ t.stack = s.stack
  | .delayTimer, s, t => t.dt = s.dt
  | .soundTimer, s, t => t.st = s.st
  | .screen, s, t => t.fb = s.fb
  | .memory, s, t => ∀ a, t.mem.read a = s.mem.read a
  | .keys, s, t => t.key = s.key
  | .latch, s, t => t.latch = s.latch
  | .draws, s, t => t.draws = s.draws
  | .schedule, s, t => t.schedule = s.schedule

/-- Everything but the listed parts is as before. -/
def KeepsAllBut (changed : List Part) (s t : State) : Prop := ∀ p, p ∉ changed → p.same s t

/-- The instruction completes with `V[x] = b`, outcome `Next`, and everything else as before. -/
def CompletesWithRegister (i : Instr) (s : State) (x : Reg) (b : Byte) : Prop :=
  ∃ t, exec i s = .next t ∧ t.getV x = b ∧ (∀ r, r ≠ x → t.getV r = s.getV r) ∧
    t.pc = s.pc + 2 ∧ KeepsAllBut [.registers, .pc] s t

/-- The instruction completes with `VF = flag`, with `V[x] = b` unless x = 0xF (the flag is written last),
outcome `Next`, and everything else as before. -/
def CompletesWithFlag (i : Instr) (s : State) (x : Reg) (b flag : Nat) : Prop :=
  ∃ t, exec i s = .next t ∧ (t.getV 15).toNat = flag ∧ (x ≠ 15 → (t.getV x).toNat = b) ∧
    (∀ r, r ≠ x → r ≠ 15 → t.getV r = s.getV r) ∧
    t.pc = s.pc + 2 ∧ KeepsAllBut [.registers, .pc] s t

/-- The instruction completes and changes nothing but `PC`. -/
def CompletesWithPc (i : Instr) (s : State) (target : Word) : Prop :=
  ∃ t, exec i s = .next t ∧ t.pc = target ∧ KeepsAllBut [.pc] s t

/-- The instruction completes with `I = a`, outcome `Next`, and everything else as before. -/
def CompletesWithIndex (i : Instr) (s : State) (a : Nat) : Prop :=
  ∃ t, exec i s = .next t ∧ t.i.toNat = a ∧ t.pc = s.pc + 2 ∧ KeepsAllBut [.index, .pc] s t

/-- The state `t` is `s` with a fault taken: the latch written, everything else as before (R177). -/
def FaultTaken (code : BitVec 3) (info : Nat) (s t : State) : Prop :=
  t.latch.halted = true ∧ t.latch.code = code ∧ t.latch.pc = s.pc ∧ t.latch.info.toNat = info ∧
    KeepsAllBut [.latch] s t

/-- The next event at `s` is a `step` of the core, listed or not, and `u` is the state at which it begins: `s` itself
where no event is listed, and otherwise `s` with the `step` taken off the schedule (R183; log 5). -/
def BeginsStep (s u : State) : Prop :=
  (s.schedule = [] ∧ u = s) ∨ ∃ rest, s.schedule = .step :: rest ∧ u = { s with schedule := rest }

/-- The execute-phase fault of an instruction at a state, with its code and `FAULT_INFO`, from the table of
R170 and the rules R171, R173, R174, R176. -/
def faultOf (i : Instr) (s : State) : Option (BitVec 3 × Nat) :=
  match i with
  | .call nnn => if s.sp.val = 16 then some (3, nnn.toNat) else none
  | .ret => if s.sp.val = 0 then some (4, 0) else none
  | .drw _ _ n =>
    if 0 < n.toNat ∧ 4096 ≤ s.i.toNat + n.toNat - 1 then some (1, max s.i.toNat 4096) else none
  | .bcd _ => if 4096 ≤ s.i.toNat + 2 then some (1, max s.i.toNat 4096) else none
  | .stm x => if 4096 ≤ s.i.toNat + x.val then some (1, max s.i.toNat 4096) else none
  | .ldm x => if 4096 ≤ s.i.toNat + x.val then some (1, max s.i.toNat 4096) else none
  | .skp x => if 15 < (s.getV x).toNat then some (6, (s.getV x).toNat) else none
  | .sknp x => if 15 < (s.getV x).toNat then some (6, (s.getV x).toNat) else none
  | _ => none

/-- Cell `k` is hit by a set bit of the sprite that `DRW` draws (R143, R144). -/
def Hit (s : State) (x y : Reg) (n : Nibble) (k : Nat) : Prop :=
  ∃ r c, r < n.toNat ∧ c < 8 ∧ (s.mem.read (s.i.toNat + r)).getLsbD (7 - c) = true ∧
    k = ((s.getV x).toNat + c) % 64 + ((s.getV y).toNat + r) % 32 * 64

/-- Two states that a program cannot tell apart: they may differ in `ST`, in the call-stack slots at index
`SP` and above, and in `FAULT_CODE`, `FAULT_PC`, `FAULT_INFO`. -/
def Alike (s t : State) : Prop :=
  s.v = t.v ∧ s.i = t.i ∧ s.pc = t.pc ∧ s.sp = t.sp ∧
  (∀ k (h : k < 16), k < s.sp.val → s.stack[k] = t.stack[k]) ∧
  s.dt = t.dt ∧ s.fb = t.fb ∧ s.mem = t.mem ∧ s.key = t.key ∧
  s.latch.halted = t.latch.halted ∧ s.draws = t.draws ∧ s.schedule = t.schedule

/-- The six instructions that define a flag (R11). -/
def definesFlag : Instr → Bool
  | .add _ _ | .sub _ _ | .shr _ _ | .subn _ _ | .shl _ _ | .drw _ _ _ => true
  | _ => false

/-- VF is named by the `x` field as a destination, or lies in the range that `LDM` loads (R11, R12). -/
def namesVF : Instr → Bool
  | .ldi x _ | .addi x _ | .mov x _ | .or x _ | .and x _ | .xor x _ | .rnd x _ | .gdt x | .wkey x
  | .ldm x => x == 15
  | _ => false

/-- Instruction `i` at `s` may write general register `r`: the writers of R12, with the registers that each writes
(`WKEY` only when a key is pressed). -/
def mayWriteRegister (i : Instr) (s : State) (r : Reg) : Prop :=
  match i with
  | .ldi x _ | .addi x _ | .mov x _ | .or x _ | .and x _ | .xor x _ | .rnd x _ | .gdt x => r = x
  | .add x _ | .sub x _ | .shr x _ | .subn x _ | .shl x _ => r = x ∨ r = 15
  | .drw _ _ _ => r = 15
  | .wkey x => r = x ∧ ∃ k : Reg, s.key[k] = true
  | .ldm x => r ≤ x
  | _ => False

end Sys2Proof.Spec

open Sys2Proof Sys2Proof.Machine Sys2Proof.Spec

/-! ### Encoding -/

/-- Words written out bit by bit from R62 and R64, at least one for each of the sixteen families, decode to the
instructions they stand for; and an illegal word of each family that has one is refused by name (R66, D27).
The operand `y` of `SHL` is the model's choice (log 21). -/
def Obligations.WordsWrittenOutDecode : Prop :=
  decodeBytes [0b00000000, 0b11100000] = .ok (.cls, []) ∧
  decodeBytes [0b00000000, 0b11101110] = .ok (.ret, []) ∧
  decodeBytes [0b00011010, 0b10111100] = .ok (.jp 0xABC, []) ∧
  decodeBytes [0b00100011, 0b00000001] = .ok (.call 0x301, []) ∧
  decodeBytes [0b00111010, 0b01000010] = .ok (.se 10 0x42, []) ∧
  decodeBytes [0b01001010, 0b01111111] = .ok (.sne 10 0x7F, []) ∧
  decodeBytes [0b01010001, 0b00100000] = .ok (.ser 1 2, []) ∧
  decodeBytes [0b01100011, 0b00101010] = .ok (.ldi 3 0x2A, []) ∧
  decodeBytes [0b01110001, 0b11111111] = .ok (.addi 1 0xFF, []) ∧
  decodeBytes [0b10000001, 0b00100111] = .ok (.subn 1 2, []) ∧
  decodeBytes [0b10000001, 0b11111110] = .ok (.shl 1 15, []) ∧
  decodeBytes [0b10010001, 0b00100000] = .ok (.sner 1 2, []) ∧
  decodeBytes [0b10101111, 0b11111110] = .ok (.lda 0xFFE, []) ∧
  decodeBytes [0b10110011, 0b00000000] = .ok (.jpv0 0x300, []) ∧
  decodeBytes [0b11000001, 0b00001111] = .ok (.rnd 1 0x0F, []) ∧
  decodeBytes [0b11010010, 0b00110101] = .ok (.drw 2 3 5, []) ∧
  decodeBytes [0b11100001, 0b10100001] = .ok (.sknp 1, []) ∧
  decodeBytes [0b11111110, 0b01100101] = .ok (.ldm 14, []) ∧
  decodeBytes [0b00000000, 0b00000000] = .error (.unknownOpcode 0x0000) ∧
  decodeBytes [0b01010000, 0b00010001] = .error (.unknownOpcode 0x5011) ∧
  decodeBytes [0b10000000, 0b00001111] = .error (.unknownOpcode 0x800F) ∧
  decodeBytes [0b10010000, 0b00000001] = .error (.unknownOpcode 0x9001) ∧
  decodeBytes [0b11100000, 0b10011101] = .error (.unknownOpcode 0xE09D) ∧
  decodeBytes [0b11110001, 0b01110101] = .error (.unknownOpcode 0xF175)

/-- R64: the map has 34 rows; the decoder answers an instruction of a row exactly for the words that the row
selects by mask and match; no word selects two rows; and a word that selects none is unknown. -/
def Obligations.DecoderFollowsOpcodeMap : Prop :=
  opcodeRows.length = 34 ∧
  (∀ w, ∀ r ∈ opcodeRows,
    (r.selects w = true ↔ ∃ i, decodeWord w = some i ∧ i.mnemonic = r.mnemonic)) ∧
  (∀ w, ∀ r ∈ opcodeRows, ∀ r' ∈ opcodeRows, r.selects w = true → r'.selects w = true → r = r') ∧
  (∀ w, decodeWord w = none ↔ ∀ r ∈ opcodeRows, r.selects w = false)

/-- The illegal words are exactly those of the table of R66 (the literal reading of the patterns is the spec's
decision D27). -/
def Obligations.IllegalWordsByFamily : Prop :=
  ∀ w, decodeWord w = none ↔
    (w.toNat / 4096 = 0x0 ∧ w.toNat % 4096 ≠ 0x0E0 ∧ w.toNat % 4096 ≠ 0x0EE) ∨
    (w.toNat / 4096 = 0x5 ∧ w.toNat % 16 ≠ 0) ∨
    (w.toNat / 4096 = 0x8 ∧ w.toNat % 16 ∈ [0x8, 0x9, 0xA, 0xB, 0xC, 0xD, 0xF]) ∨
    (w.toNat / 4096 = 0x9 ∧ w.toNat % 16 ≠ 0) ∨
    (w.toNat / 4096 = 0xE ∧ w.toNat % 256 ∉ [0x9E, 0xA1]) ∨
    (w.toNat / 4096 = 0xF ∧
      w.toNat % 256 ∉ [0x07, 0x0A, 0x15, 0x18, 0x1E, 0x29, 0x33, 0x55, 0x65])

/-- Decoding the bytes of an encoded instruction gives it back, with every operand, and leaves the bytes after
it. That `SHR` and `SHL` have an operand `y` is the model's choice (log 21). -/
def Obligations.DecodeInvertsEncode : Prop :=
  ∀ i rest, decodeBytes (wordBytes (encode i) ++ rest) = .ok (i, rest)

/-- A legal word is the encoding of the instruction it decodes to: the decoder drops no bit. For `SHR` and `SHL` this
is the model's choice: R65 decodes them without `y`, and the constructors keep it (log 21). -/
def Obligations.EncodeInvertsDecode : Prop :=
  ∀ w i, decodeWord w = some i → encode i = w

/-! ### The step machine -/

/-- A step runs the decoded instruction: at a running core whose next event is a `step`, when the two bytes at
`PC` decode to `i`, step is exec of `i`. Where the `step` is listed in the schedule it is first taken off. -/
def Obligations.StepRunsDecodedInstruction : Prop :=
  ∀ (s : State) (i : Instr), s.latch.halted = false → s.pc.toNat + 1 < 4096 →
    decodeBytes [s.mem.read s.pc.toNat, s.mem.read (s.pc.toNat + 1)] = .ok (i, []) →
    (s.schedule = [] → step s = exec i s) ∧
    (∀ rest, s.schedule = .step :: rest → step s = exec i { s with schedule := rest })

/-- The instruction that the host places is the one that the very next step runs, from any state; and at a
running core whose `PC` allows a fetch nothing but its two bytes and the schedule is changed. The placing is
the model's own (log 7). -/
def Obligations.PlacedWordRunsNext : Prop :=
  (∀ (s : State) (w : Nat) (i : Instr), decodeTableWord 16 w = some i →
    step (s.withFetchWord 16 w) = exec i (s.withFetchWord 16 w)) ∧
  (∀ (s : State) (w : Nat), s.latch.halted = false → s.pc.toNat + 1 < 4096 →
    KeepsAllBut [.memory, .schedule] s (s.withFetchWord 16 w) ∧
    ∀ a, a ≠ s.pc.toNat → a ≠ s.pc.toNat + 1 →
      (s.withFetchWord 16 w).mem.read a = s.mem.read a)

/-- Every instruction at every state, and every step of every state, answers a next state: the machine's faults
are next states with the latch written, and nothing is refused (log 6). -/
def Obligations.EveryStepAnswersNext : Prop :=
  (∀ i s, ∃ t, exec i s = .next t) ∧ ∀ s, ∃ t, step s = .next t

/-- The invariant holds in the state after reset. -/
def Obligations.ResetMeetsInvariant : Prop := State.reset.Inv

/-- Every step, whatever event it is, keeps the invariant: memory canonical, `PC ≤ 0x10FE` (R16), return addresses
in 0x002 to 0x1000 (R103), and the latch clear or describing the fault at `PC` (R22, R177, R181). -/
def Obligations.EveryStepKeepsInvariant : Prop :=
  ∀ s t : State, s.Inv → step s = .next t → t.Inv

/-- R43: the fetch takes the byte at `PC` as the high byte and the byte at `PC + 1` as the low byte, for any `PC`;
it raises OutOfBoundsMemoryAccess exactly when `PC ≥ 4095`, with the first address out of range. -/
def Obligations.FetchIsBigEndian : Prop :=
  ∀ s : State,
    (s.pc.toNat < 4095 → ∃ w, s.fetch = .ok w ∧
      w.toNat = (s.mem.read s.pc.toNat).toNat * 256 + (s.mem.read (s.pc.toNat + 1)).toNat) ∧
    (s.pc.toNat = 4095 → s.fetch = .error 4096) ∧
    (4096 ≤ s.pc.toNat → s.fetch = .error s.pc.toNat) ∧
    (4095 ≤ s.pc.toNat → s.latch.halted = false → ∃ info : Word, info.toNat = max s.pc.toNat 4096 ∧
      instructionStep s = trap .outOfBoundsMemoryAccess info s)

/-- How every fault-free instruction moves `PC`, by class (the table of R16; the retry is the spec's decision
D13). -/
def Obligations.PcMovesByOutcome : Prop :=
  ∀ i (s t : State), s.latch.halted = false → exec i s = .next t → t.latch.halted = false →
    match i with
    | .se _ _ | .sne _ _ | .ser _ _ | .sner _ _ | .skp _ | .sknp _ =>
        t.pc = s.pc + 2 ∨ t.pc = s.pc + 4
    | .jp nnn | .call nnn => t.pc.toNat = nnn.toNat
    | .jpv0 nnn => t.pc.toNat = nnn.toNat + (s.getV 0).toNat
    | .ret => ∃ k, ∃ h : k < 16, s.sp.val = k + 1 ∧ t.pc = s.stack[k]
    | .wkey _ => t.pc = s.pc + 2 ∨ (t.pc = s.pc ∧ ∀ k : Reg, s.key[k] = false)
    | _ => t.pc = s.pc + 2

/-! ### Faults -/

/-- Taking a fault writes `HALTED`, `FAULT_CODE`, `FAULT_PC` and `FAULT_INFO`, and nothing else changes (R177; the latch
and the precision of a fault are the spec's decisions D16, D17; log 6). -/
def Obligations.FaultEntryWritesOnlyTheLatch : Prop :=
  ∀ (c : FaultCause) (info : Word) (s : State), ∃ t, trap c info s = .next t ∧
    FaultTaken c.code info.toNat s t

/-- The execute-phase faults, exactly: an instruction takes the fault that the spec's table gives it at that
state, with no other effect, and where the table gives none it completes with the latch as it was (R170, R171,
R173, R174, R176, R178, R179, with the spec's decisions D14, D16, D17, D19). -/
def Obligations.InstructionsFaultExactlyAsTabled : Prop :=
  ∀ i s, ∃ t, exec i s = .next t ∧
    match faultOf i s with
    | some (code, info) => FaultTaken code info s t
    | none => t.latch = s.latch

/-- A step, listed or not, whose fetch leaves memory raises OutOfBoundsMemoryAccess, code 1, with the first address
out of range, before anything is decoded (R171(a), R179; the latch is the spec's decision D16). -/
def Obligations.FetchBeyondMemoryFaults : Prop :=
  ∀ s u : State, BeginsStep s u → s.latch.halted = false → 4095 ≤ s.pc.toNat →
    ∃ t, step s = .next t ∧ FaultTaken 1 (max s.pc.toNat 4096) u t

/-- A step, listed or not, that fetches a word of no pattern raises UnknownOpcode, code 5, with the word (R175, R66;
D16, D27). -/
def Obligations.UnknownWordFaults : Prop :=
  ∀ (s u : State) (w : Word), BeginsStep s u → s.latch.halted = false → s.fetch = .ok w →
    decodeWord w = none → ∃ t, step s = .next t ∧ FaultTaken 5 w.toNat u t

/-- A step, listed or not, that ends in a fault has no effect but the latch, and `FAULT_PC` is the address of the
faulting instruction, whatever the phase and the instruction (R178, the spec's decision D17). -/
def Obligations.FaultsArePrecise : Prop :=
  ∀ s u t : State, BeginsStep s u → s.latch.halted = false → step s = .next t →
    t.latch.halted = true → KeepsAllBut [.latch] u t ∧ t.latch.pc = s.pc

/-- While the core is halted a `step` changes nothing, and no event but `reset` changes the latch (R180, the
spec's decision D18). -/
def Obligations.HaltedCoreWaitsForReset : Prop :=
  ∀ s t : State, s.latch.halted = true → step s = .next t →
    (s.schedule = [] → t = s) ∧
    (∀ rest, s.schedule = .step :: rest → t = { s with schedule := rest }) ∧
    (∀ e rest, s.schedule = e :: rest → e ≠ .reset → t.latch = s.latch)

/-- No step latches code 2, InvalidRegisterIndex: it is unreachable (R172, which the spec marks as derived). -/
def Obligations.InvalidRegisterIndexUnreachable : Prop :=
  ∀ s t : State, step s = .next t → s.latch.code ≠ 2 → t.latch.code ≠ 2

/-! ### Memory -/

/-- R41, R55: an access at 4096 or above raises the fault with that address; below, a write succeeds, a read of
the same address then returns the byte written, and every other address reads as before. -/
def Obligations.MemoryReadsWhatWasWritten : Prop :=
  ∀ (m : Memory) (a : Nat) (b : Byte),
    (4096 ≤ a → m.memRead a = .error a ∧ m.memWrite a b = .error a) ∧
    (a < 4096 → (∃ c, m.memRead a = .ok c) ∧ ∃ m', m.memWrite a b = .ok m' ∧
      m'.memRead a = .ok b ∧ ∀ a', a' ≠ a → m'.memRead a' = m.memRead a')

/-- Memories in canonical form that read alike at every address are the same data. -/
def Obligations.CanonicalMemoryIsUnique : Prop :=
  ∀ m m' : Memory, m.wf → m'.wf → (∀ a, m.read a = m'.read a) → m = m'

/-- A store is seen by every later fetch: after `STM`, a fetch at any of the stored addresses but the last finds the
registers stored there, the lower one as the high byte (R52, R44, which the spec marks as derived). -/
def Obligations.StoredBytesAreFetched : Prop :=
  ∀ (s : State) (x : Reg), s.i.toNat + x.val < 4096 → ∃ t, exec (.stm x) s = .next t ∧
    ∀ (k k' : Reg), k'.val = k.val + 1 → k'.val ≤ x.val →
      State.fetch { t with pc := s.i + BitVec.ofNat 16 k.val } =
        .ok (bigEndian (s.getV k) (s.getV k'))

/-! ### Register load, arithmetic and logic -/

/-- R82, R83, R84: the encodings, results and frames of `LDI`, `ADDI` (no flag) and `MOV`, for every register
among them VF. -/
def Obligations.LoadImmediateAddImmediateMove : Prop :=
  ∀ (x y : Reg) (nn : Byte) (s : State),
    decodeWord (wordXNN 0x6 x nn) = some (.ldi x nn) ∧
    CompletesWithRegister (.ldi x nn) s x nn ∧
    decodeWord (wordXNN 0x7 x nn) = some (.addi x nn) ∧
    CompletesWithRegister (.addi x nn) s x
      (BitVec.ofNat 8 (((s.getV x).toNat + nn.toNat) % 256)) ∧
    decodeWord (wordXYN 0x8 x y 0x0) = some (.mov x y) ∧
    CompletesWithRegister (.mov x y) s x (s.getV y)

/-- R85, R86, R87: the encodings, results and frames of `OR`, `AND` and `XOR`, bit by bit; no flag. -/
def Obligations.BitwiseLogic : Prop :=
  ∀ (x y : Reg) (s : State),
    decodeWord (wordXYN 0x8 x y 0x1) = some (.or x y) ∧
    decodeWord (wordXYN 0x8 x y 0x2) = some (.and x y) ∧
    decodeWord (wordXYN 0x8 x y 0x3) = some (.xor x y) ∧
    ∃ b c d : Byte,
      CompletesWithRegister (.or x y) s x b ∧ CompletesWithRegister (.and x y) s x c ∧
      CompletesWithRegister (.xor x y) s x d ∧
      ∀ k, k < 8 →
        b.getLsbD k = ((s.getV x).getLsbD k || (s.getV y).getLsbD k) ∧
        c.getLsbD k = ((s.getV x).getLsbD k && (s.getV y).getLsbD k) ∧
        d.getLsbD k = ((s.getV x).getLsbD k != (s.getV y).getLsbD k)

/-- R88, R89, R91: `ADD`, `SUB` and `SUBN` with their flags, for every pair of registers; with x = 0xF the flag
stays (R80, the spec's decision D6; log 9). -/
def Obligations.AddSubtractWithFlag : Prop :=
  ∀ (x y : Reg) (s : State),
    CompletesWithFlag (.add x y) s x
      (((s.getV x).toNat + (s.getV y).toNat) % 256)
      (if (s.getV x).toNat + (s.getV y).toNat > 255 then 1 else 0) ∧
    CompletesWithFlag (.sub x y) s x
      (((s.getV x).toNat + 256 - (s.getV y).toNat) % 256)
      (if (s.getV x).toNat ≥ (s.getV y).toNat then 1 else 0) ∧
    CompletesWithFlag (.subn x y) s x
      (((s.getV y).toNat + 256 - (s.getV x).toNat) % 256)
      (if (s.getV y).toNat ≥ (s.getV x).toNat then 1 else 0)

/-- R90, R92: `SHR` and `SHL` shift `V[x]` by one bit, VF is the bit shifted out as 0 or 1, and every `y` gives
the same; with x = 0xF the flag stays (R80, the spec's decision D6; log 9). -/
def Obligations.ShiftsWithFlag : Prop :=
  ∀ (x y : Reg) (s : State),
    CompletesWithFlag (.shr x y) s x ((s.getV x).toNat / 2) ((s.getV x).toNat % 2) ∧
    CompletesWithFlag (.shl x y) s x ((s.getV x).toNat * 2 % 256) ((s.getV x).toNat / 128)

/-- R11: a flag-defining instruction leaves 0 or 1 in VF whenever it executes without fault; any other instruction
leaves VF alone unless its `x` field names it or, for `LDM`, the loaded range takes it in. -/
def Obligations.OnlyFlagInstructionsWriteVF : Prop :=
  ∀ i (s t : State), s.latch.halted = false → exec i s = .next t →
    (definesFlag i = true → t.latch.halted = false → t.getV 15 = 0x00 ∨ t.getV 15 = 0x01) ∧
    (definesFlag i = false → namesVF i = false → t.getV 15 = s.getV 15)

/-! ### Control transfer -/

/-- R101: `JP nnn` sets `PC` to `nnn` and changes nothing else. -/
def Obligations.JumpAbsolute : Prop :=
  ∀ (nnn : Addr) (s : State),
    decodeWord (wordNNN 0x1 nnn) = some (.jp nnn) ∧
    ∃ target : Word, target.toNat = nnn.toNat ∧ CompletesWithPc (.jp nnn) s target

/-- `JPV0 nnn` sets `PC` to the unreduced sum of `nnn` and V0 and changes nothing else (R104; not masking it is the
spec's decision D28). -/
def Obligations.JumpIndexed : Prop :=
  ∀ (nnn : Addr) (s : State), ∃ target : Word,
    target.toNat = nnn.toNat + (s.getV 0).toNat ∧ CompletesWithPc (.jpv0 nnn) s target

/-- `CALL nnn` below the stack's capacity puts `PC + 2` into slot `SP`, adds 1 to `SP`, and jumps; other slots and
everything else stay (R102, R14; the pushed value is the spec's decision D5; log 8). -/
def Obligations.CallPushesReturnAddress : Prop :=
  ∀ (nnn : Addr) (s : State) (h : s.sp.val < 16), ∃ t, exec (.call nnn) s = .next t ∧
    t.sp.val = s.sp.val + 1 ∧ t.stack[s.sp.val] = s.pc + 2 ∧
    (∀ k (hk : k < 16), k ≠ s.sp.val → t.stack[k] = s.stack[k]) ∧
    t.pc.toNat = nnn.toNat ∧ KeepsAllBut [.stack, .pc] s t

/-- `RET` on a non-empty stack takes 1 from `SP`, sets `PC` to the slot at the new `SP`, and changes no slot and
nothing else (R103, R14). -/
def Obligations.ReturnPops : Prop :=
  ∀ (s : State) (k : Nat) (hk : k < 16), s.sp.val = k + 1 → ∃ t, exec .ret s = .next t ∧
    t.sp.val = k ∧ t.pc = s.stack[k] ∧ t.stack = s.stack ∧ KeepsAllBut [.stack, .pc] s t

/-- A return after a call comes back to the instruction after the call with the stack at its old depth and every
live slot as it was (R102, R103; D5). -/
def Obligations.ReturnUndoesCall : Prop :=
  ∀ (nnn : Addr) (s t u : State), s.sp.val < 16 → exec (.call nnn) s = .next t →
    exec .ret t = .next u → u.pc = s.pc + 2 ∧ u.sp = s.sp ∧
    (∀ k (hk : k < 16), k < s.sp.val → u.stack[k] = s.stack[k]) ∧ KeepsAllBut [.stack, .pc] s u

/-- R105, R106, R107, R108: the four conditional skips go to `PC + 4` exactly when their condition holds and to
`PC + 2` otherwise, and change nothing else. -/
def Obligations.ConditionalSkips : Prop :=
  ∀ (x y : Reg) (nn : Byte) (s : State),
    decodeWord (wordXNN 0x3 x nn) = some (.se x nn) ∧
    CompletesWithPc (.se x nn) s (if s.getV x = nn then s.pc + 4 else s.pc + 2) ∧
    decodeWord (wordXNN 0x4 x nn) = some (.sne x nn) ∧
    CompletesWithPc (.sne x nn) s (if s.getV x = nn then s.pc + 2 else s.pc + 4) ∧
    decodeWord (wordXYN 0x5 x y 0x0) = some (.ser x y) ∧
    CompletesWithPc (.ser x y) s (if s.getV x = s.getV y then s.pc + 4 else s.pc + 2) ∧
    decodeWord (wordXYN 0x9 x y 0x0) = some (.sner x y) ∧
    CompletesWithPc (.sner x y) s (if s.getV x = s.getV y then s.pc + 2 else s.pc + 4)

/-! ### Address register and memory instructions -/

/-- R120, R122: `LDA` and `FONT` set `I` to `nnn` and to 5 × `V[x]`, the whole byte, and change nothing else. -/
def Obligations.LoadAddressAndGlyph : Prop :=
  ∀ (x : Reg) (nnn : Addr) (s : State),
    decodeWord (wordNNN 0xA nnn) = some (.lda nnn) ∧
    CompletesWithIndex (.lda nnn) s nnn.toNat ∧
    decodeWord (wordXNN 0xF x 0x29) = some (.font x) ∧
    CompletesWithIndex (.font x) s ((s.getV x).toNat * 5)

/-- `ADDA` adds `V[x]` to `I` modulo 65536 and changes nothing else, VF among it (R121; the width of the sum is the
spec's decision D7; log 10). -/
def Obligations.AddToAddressRegister : Prop :=
  ∀ (x : Reg) (s : State),
    CompletesWithIndex (.adda x) s ((s.i.toNat + (s.getV x).toNat) % 65536)

/-- `BCD` stores the three decimal digits of `V[x]`, hundreds first, at the effective addresses `I`, `I + 1`, `I + 2`,
and changes nothing else (R123; the order is the spec's decision D9; log 12). -/
def Obligations.BcdStoresDigits : Prop :=
  ∀ (x : Reg) (s : State), s.i.toNat + 2 < 4096 → ∃ t, exec (.bcd x) s = .next t ∧
    ∃ h d o : Nat, h < 10 ∧ d < 10 ∧ o < 10 ∧ (s.getV x).toNat = 100 * h + 10 * d + o ∧
      (t.mem.read (s.effectiveAddress 0)).toNat = h ∧
      (t.mem.read (s.effectiveAddress 1)).toNat = d ∧
      (t.mem.read (s.effectiveAddress 2)).toNat = o ∧
      (∀ a, a < s.effectiveAddress 0 ∨ s.effectiveAddress 0 + 3 ≤ a →
        t.mem.read a = s.mem.read a) ∧
      t.pc = s.pc + 2 ∧ KeepsAllBut [.memory, .pc] s t

/-- `STM` stores `V[0]` to `V[x]` at ascending effective addresses and changes nothing else, `I` among it (R124; that
`I` stays is the spec's decision D8; log 11). -/
def Obligations.StoreMultiple : Prop :=
  ∀ (x : Reg) (s : State), s.i.toNat + x.val < 4096 → ∃ t, exec (.stm x) s = .next t ∧
    (∀ k : Reg, k ≤ x → t.mem.read (s.effectiveAddress k.val) = s.getV k) ∧
    (∀ a, a < s.effectiveAddress 0 ∨ s.effectiveAddress 0 + (x.val + 1) ≤ a →
      t.mem.read a = s.mem.read a) ∧
    t.pc = s.pc + 2 ∧ KeepsAllBut [.memory, .pc] s t

/-- `LDM` loads `V[0]` to `V[x]` from ascending effective addresses and changes nothing else, `I` among it (R125; that
`I` stays is the spec's decision D8; log 11). -/
def Obligations.LoadMultiple : Prop :=
  ∀ (x : Reg) (s : State), s.i.toNat + x.val < 4096 → ∃ t, exec (.ldm x) s = .next t ∧
    (∀ k : Reg, k ≤ x → t.getV k = s.mem.read (s.effectiveAddress k.val)) ∧
    (∀ k : Reg, x < k → t.getV k = s.getV k) ∧
    t.pc = s.pc + 2 ∧ KeepsAllBut [.registers, .pc] s t

/-- The source's round trip: `STM` and then, whatever the registers hold by then, `LDM` with the same `x` and `I`
restores `V[0]` to `V[x]`; and `LDM` and then `STM` leaves memory reading as it did (D8). -/
def Obligations.StoreLoadRoundTrip : Prop :=
  ∀ (x : Reg) (s : State), s.i.toNat + x.val < 4096 →
    (∀ t u v, exec (.stm x) s = .next t → u.mem = t.mem → u.i = t.i →
      exec (.ldm x) u = .next v → ∀ k : Reg, k ≤ x → v.getV k = s.getV k) ∧
    (∀ t u, exec (.ldm x) s = .next t → exec (.stm x) t = .next u →
      ∀ a, u.mem.read a = s.mem.read a)

/-! ### Display -/

/-- R140: `CLS` makes every cell 0 and changes nothing else; twice is once. -/
def Obligations.ClearScreen : Prop :=
  ∀ s : State, decodeWord 0x00E0 = some .cls ∧
    ∃ t, exec .cls s = .next t ∧ (∀ k, Screen.lit t.fb k = false) ∧ t.pc = s.pc + 2 ∧
      KeepsAllBut [.screen, .pc] s t ∧ ∃ u, exec .cls t = .next u ∧ u.fb = t.fb

/-- `DRW` flips exactly the cells that the sprite's set bits hit, each wrapped on both axes, and VF is 1 iff one of
them was lit before the instruction, else 0; n = 0 draws nothing. Everything else stays (R141, R143 to R146; the
wrap, the bit order and n = 0 are the spec's decisions D10 to D12; logs 13, 14, 16). -/
def Obligations.DrawFlipsTheSpriteCells : Prop :=
  ∀ (x y : Reg) (n : Nibble) (s : State), n.toNat = 0 ∨ s.i.toNat + n.toNat ≤ 4096 →
    ∃ t, exec (.drw x y n) s = .next t ∧
      (∀ k, (Hit s x y n k → Screen.lit t.fb k = !Screen.lit s.fb k) ∧
        (¬ Hit s x y n k → Screen.lit t.fb k = Screen.lit s.fb k)) ∧
      ((∃ k, Hit s x y n k ∧ Screen.lit s.fb k = true) → t.getV 15 = 0x01) ∧
      ((¬ ∃ k, Hit s x y n k ∧ Screen.lit s.fb k = true) → t.getV 15 = 0x00) ∧
      (∀ r, r ≠ 15 → t.getV r = s.getV r) ∧
      t.pc = s.pc + 2 ∧ KeepsAllBut [.registers, .screen, .pc] s t

/-- A sprite drawn twice in the same place clears itself; on a dark frame buffer the first draw reports no
collision and the second does, if a bit of the sprite is set (R145, R146, C8; D10 to D12). -/
def Obligations.DrawTwiceRestores : Prop :=
  ∀ (x y : Reg) (n : Nibble) (s : State), x ≠ 15 → y ≠ 15 →
    n.toNat = 0 ∨ s.i.toNat + n.toNat ≤ 4096 →
    ∃ t u, exec (.drw x y n) s = .next t ∧ exec (.drw x y n) t = .next u ∧ u.fb = s.fb ∧
      ((∀ k, Screen.lit s.fb k = false) → (∃ k, Hit s x y n k) → t.getV 15 = 0x00 ∧ u.getV 15 = 0x01)

/-! ### Timers, keypad, random number -/

/-- R150, R151, R152: `GDT` reads `DT`, `SDT` and `SST` write `DT` and `ST`, and nothing else changes. -/
def Obligations.TimerRegisterAccess : Prop :=
  ∀ (x : Reg) (s : State),
    decodeWord (wordXNN 0xF x 0x07) = some (.gdt x) ∧ CompletesWithRegister (.gdt x) s x s.dt ∧
    decodeWord (wordXNN 0xF x 0x15) = some (.sdt x) ∧
    (∃ t, exec (.sdt x) s = .next t ∧ t.dt = s.getV x ∧ t.pc = s.pc + 2 ∧
      KeepsAllBut [.delayTimer, .pc] s t) ∧
    decodeWord (wordXNN 0xF x 0x18) = some (.sst x) ∧
    (∃ t, exec (.sst x) s = .next t ∧ t.st = s.getV x ∧ t.pc = s.pc + 2 ∧
      KeepsAllBut [.soundTimer, .pc] s t)

/-- `SKP` and `SKNP` with an index of at most 15 in `V[x]` skip by that key's level and change nothing else (R153,
R154; the fault above 15, the spec's decision D14, stands in InstructionsFaultExactlyAsTabled). -/
def Obligations.KeySkips : Prop :=
  ∀ (x k : Reg) (s : State), (s.getV x).toNat = k.val →
    CompletesWithPc (.skp x) s (if s.key[k] = true then s.pc + 4 else s.pc + 2) ∧
    CompletesWithPc (.sknp x) s (if s.key[k] = true then s.pc + 2 else s.pc + 4)

/-- `WKEY` with no key pressed changes nothing at all, `PC` among it; with some key pressed it stores the least
pressed index and goes on (R155, the spec's decision D13; log 15). -/
def Obligations.WaitForKey : Prop :=
  ∀ (x : Reg) (s : State),
    ((∀ k : Reg, s.key[k] = false) → exec (.wkey x) s = .next s) ∧
    (∀ k : Reg, s.key[k] = true → (∀ j : Reg, j < k → s.key[j] = false) →
      CompletesWithRegister (.wkey x) s x (BitVec.ofNat 8 k.val))

/-- `RND` sets `V[x]` to the drawn byte masked by `nn`, so no bit outside `nn` is set whatever the draw; it consumes
one draw and changes nothing else (R156; the draw is a free value, the spec's D15; log 4). -/
def Obligations.RandomByteIsMasked : Prop :=
  ∀ (x : Reg) (nn : Byte) (s : State), ∃ t, exec (.rnd x nn) s = .next t ∧
    t.getV x = Config.randomByte s.draws &&& nn ∧
    (∀ k, nn.getLsbD k = false → (t.getV x).getLsbD k = false) ∧
    (∀ r, r ≠ x → t.getV r = s.getV r) ∧ t.draws = s.draws + 1 ∧ t.pc = s.pc + 2 ∧
    KeepsAllBut [.registers, .pc, .draws] s t

/-! ### Events other than `step` -/

/-- R184: a `tick` takes 1 from each timer that is above 0, independently, and changes nothing else. -/
def Obligations.TickCountsDown : Prop :=
  ∀ (s : State) (rest : List HostEvent), s.schedule = .tick :: rest → ∃ t, step s = .next t ∧
    (0 < s.dt.toNat → t.dt.toNat = s.dt.toNat - 1) ∧ (s.dt.toNat = 0 → t.dt.toNat = 0) ∧
    (0 < s.st.toNat → t.st.toNat = s.st.toNat - 1) ∧ (s.st.toNat = 0 → t.st.toNat = 0) ∧
    t.schedule = rest ∧ KeepsAllBut [.delayTimer, .soundTimer, .schedule] s t

/-- After j ticks in a row each timer holds its value less j, and never less than 0, whether or not the core is
halted (R185, R186, which the spec derives and decides, D22; log 18). -/
def Obligations.TicksReachZero : Prop :=
  ∀ (j : Nat) (s : State) (rest : List HostEvent),
    s.schedule = List.replicate j .tick ++ rest → ∃ t, run j s = .next t ∧
      t.dt.toNat = s.dt.toNat - j ∧ t.st.toNat = s.st.toNat - j ∧ t.schedule = rest ∧
      KeepsAllBut [.delayTimer, .soundTimer, .schedule] s t

/-- A `key(k, b)` event sets entry k of the keypad and changes nothing else (R187, R20). -/
def Obligations.KeyEventSetsOneEntry : Prop :=
  ∀ (s : State) (k : Reg) (b : Bool) (rest : List HostEvent), s.schedule = .key k b :: rest →
    ∃ t, step s = .next t ∧ t.key[k] = b ∧ (∀ j : Reg, j ≠ k → t.key[j] = s.key[j]) ∧
      t.schedule = rest ∧ KeepsAllBut [.keys, .schedule] s t

/-- A `load` that fits is accepted and writes its bytes at ascending addresses and nothing else; one that does not
fit is reported as such and writes nothing at all (R53, the spec's decision D24; log 19). -/
def Obligations.LoadWritesAllOrNothing : Prop :=
  ∀ (s : State) (offset : Nat) (bytes : List Byte) (rest : List HostEvent),
    s.schedule = .load offset bytes :: rest →
    (offset + bytes.length ≤ 4096 → ∃ t, step s = .next t ∧
      (∀ j (h : j < bytes.length), t.mem.read (offset + j) = bytes[j]) ∧
      (∀ a, a < offset ∨ offset + bytes.length ≤ a → t.mem.read a = s.mem.read a) ∧
      t.schedule = rest ∧ KeepsAllBut [.memory, .schedule] s t ∧ (s.load offset bytes).1 = .accepted) ∧
    (4096 < offset + bytes.length → step s = .next { s with schedule := rest } ∧
      (s.load offset bytes).1 = .outOfBoundsMemoryAccess)

/-- `reset` in any state, halted or not, gives the values of R25, which are those of the state after reset, and
leaves the random source and the events to come (R200, the spec's decisions D2, D3, D16, D23; logs 1 to 6,
20). -/
def Obligations.ResetRestoresEverything : Prop :=
  ∀ (s : State) (rest : List HostEvent), s.schedule = .reset :: rest → ∃ t, step s = .next t ∧
    t = { State.reset with draws := s.draws, schedule := rest } ∧
    (∀ r, t.getV r = 0) ∧ t.i = 0 ∧ t.pc = 0x200 ∧ t.sp = 0 ∧
    (∀ k (h : k < 16), t.stack[k] = 0) ∧ t.dt = 0 ∧ t.st = 0 ∧
    (∀ k, Screen.lit t.fb k = false) ∧ (∀ k : Reg, t.key[k] = false) ∧
    (∀ a (h : a < 80), ∃ b, Config.font[a]? = some b ∧ t.mem.read a = b) ∧
    (∀ a, 80 ≤ a → t.mem.read a = 0x00) ∧
    t.latch.halted = false ∧ t.latch.code = 0 ∧ t.latch.pc = 0 ∧ t.latch.info = 0

/-! ### The whole machine -/

/-- Which instructions can change each part of the state: a general register only the writers of R12, the flag-defining
six and `LDM` among them; `PC` only an instruction that does not fault, and the latch only one that does (the faults of
the spec's table, decisions D14, D16, D17); `I` only `LDA`, `ADDA`, `FONT`; the call stack only `CALL`,
`RET`; `DT` only `SDT`; `ST` only `SST`; the frame buffer only `CLS`, `DRW`; memory only `BCD`, `STM`; the keypad and
the schedule none; the random source only `RND` (R12, R13, R14, R19, R20, R23, R126, R156). -/
def Obligations.WhoWritesWhat : Prop :=
  ∀ i (s t : State), exec i s = .next t →
    (∀ r, t.getV r ≠ s.getV r → mayWriteRegister i s r) ∧
    (t.pc ≠ s.pc → faultOf i s = none) ∧
    (t.latch ≠ s.latch → ∃ code info, faultOf i s = some (code, info)) ∧
    (t.i ≠ s.i → (∃ n, i = .lda n) ∨ (∃ x, i = .adda x) ∨ ∃ x, i = .font x) ∧
    (t.sp ≠ s.sp ∨ t.stack ≠ s.stack → (∃ n, i = .call n) ∨ i = .ret) ∧
    (t.dt ≠ s.dt → ∃ x, i = .sdt x) ∧
    (t.st ≠ s.st → ∃ x, i = .sst x) ∧
    (t.fb ≠ s.fb → i = .cls ∨ ∃ x y n, i = .drw x y n) ∧
    (t.mem ≠ s.mem → (∃ x, i = .bcd x) ∨ ∃ x, i = .stm x) ∧
    (t.draws ≠ s.draws → ∃ x nn, i = .rnd x nn) ∧
    t.key = s.key ∧ t.schedule = s.schedule

/-- No instruction and no event reads `ST`, a call-stack slot at index `SP` or above, or `FAULT_CODE`, `FAULT_PC`,
`FAULT_INFO` in a way a program could observe: states that differ only there stay so after every step (R14,
R19, R22; property 10 of spec/95_test_vectors.md part 4). -/
def Obligations.HiddenStateIsUnobservable : Prop :=
  ∀ s s' t t' : State, Alike s s' → step s = .next t → step s' = .next t' → Alike t t'

/-- A final state stays as it is at every further step of the core (R211, the spec's decision D29; R101). -/
def Obligations.FinalStateStays : Prop :=
  ∀ s : State, s.final → s.schedule = [] → step s = .next s
end

