-- ==== Sys2Proof/Laws/State.lean ====
section
/-! SUPPORT. What each update of the state does to each field, one lemma per field per update, true by rfl. -/

namespace Sys2Proof.Machine

/-! ### `setV` -/

@[simp] theorem State.setV_v (s : State) (x : Reg) (b : Byte) : (s.setV x b).v = s.v.set x b := rfl
@[simp] theorem State.setV_i (s : State) (x : Reg) (b : Byte) : (s.setV x b).i = s.i := rfl
@[simp] theorem State.setV_pc (s : State) (x : Reg) (b : Byte) : (s.setV x b).pc = s.pc := rfl
@[simp] theorem State.setV_stack (s : State) (x : Reg) (b : Byte) : (s.setV x b).stack = s.stack := rfl
@[simp] theorem State.setV_sp (s : State) (x : Reg) (b : Byte) : (s.setV x b).sp = s.sp := rfl
@[simp] theorem State.setV_dt (s : State) (x : Reg) (b : Byte) : (s.setV x b).dt = s.dt := rfl
@[simp] theorem State.setV_st (s : State) (x : Reg) (b : Byte) : (s.setV x b).st = s.st := rfl
@[simp] theorem State.setV_fb (s : State) (x : Reg) (b : Byte) : (s.setV x b).fb = s.fb := rfl
@[simp] theorem State.setV_mem (s : State) (x : Reg) (b : Byte) : (s.setV x b).mem = s.mem := rfl
@[simp] theorem State.setV_key (s : State) (x : Reg) (b : Byte) : (s.setV x b).key = s.key := rfl
@[simp] theorem State.setV_latch (s : State) (x : Reg) (b : Byte) : (s.setV x b).latch = s.latch := rfl
@[simp] theorem State.setV_draws (s : State) (x : Reg) (b : Byte) : (s.setV x b).draws = s.draws := rfl
@[simp] theorem State.setV_schedule (s : State) (x : Reg) (b : Byte) : (s.setV x b).schedule = s.schedule := rfl

/-! ### `setI` -/

@[simp] theorem State.setI_v (s : State) (w : Word) : (s.setI w).v = s.v := rfl
@[simp] theorem State.setI_i (s : State) (w : Word) : (s.setI w).i = w := rfl
@[simp] theorem State.setI_pc (s : State) (w : Word) : (s.setI w).pc = s.pc := rfl
@[simp] theorem State.setI_stack (s : State) (w : Word) : (s.setI w).stack = s.stack := rfl
@[simp] theorem State.setI_sp (s : State) (w : Word) : (s.setI w).sp = s.sp := rfl
@[simp] theorem State.setI_dt (s : State) (w : Word) : (s.setI w).dt = s.dt := rfl
@[simp] theorem State.setI_st (s : State) (w : Word) : (s.setI w).st = s.st := rfl
@[simp] theorem State.setI_fb (s : State) (w : Word) : (s.setI w).fb = s.fb := rfl
@[simp] theorem State.setI_mem (s : State) (w : Word) : (s.setI w).mem = s.mem := rfl
@[simp] theorem State.setI_key (s : State) (w : Word) : (s.setI w).key = s.key := rfl
@[simp] theorem State.setI_latch (s : State) (w : Word) : (s.setI w).latch = s.latch := rfl
@[simp] theorem State.setI_draws (s : State) (w : Word) : (s.setI w).draws = s.draws := rfl
@[simp] theorem State.setI_schedule (s : State) (w : Word) : (s.setI w).schedule = s.schedule := rfl

/-! ### `setDT` -/

@[simp] theorem State.setDT_v (s : State) (b : Byte) : (s.setDT b).v = s.v := rfl
@[simp] theorem State.setDT_i (s : State) (b : Byte) : (s.setDT b).i = s.i := rfl
@[simp] theorem State.setDT_pc (s : State) (b : Byte) : (s.setDT b).pc = s.pc := rfl
@[simp] theorem State.setDT_stack (s : State) (b : Byte) : (s.setDT b).stack = s.stack := rfl
@[simp] theorem State.setDT_sp (s : State) (b : Byte) : (s.setDT b).sp = s.sp := rfl
@[simp] theorem State.setDT_dt (s : State) (b : Byte) : (s.setDT b).dt = b := rfl
@[simp] theorem State.setDT_st (s : State) (b : Byte) : (s.setDT b).st = s.st := rfl
@[simp] theorem State.setDT_fb (s : State) (b : Byte) : (s.setDT b).fb = s.fb := rfl
@[simp] theorem State.setDT_mem (s : State) (b : Byte) : (s.setDT b).mem = s.mem := rfl
@[simp] theorem State.setDT_key (s : State) (b : Byte) : (s.setDT b).key = s.key := rfl
@[simp] theorem State.setDT_latch (s : State) (b : Byte) : (s.setDT b).latch = s.latch := rfl
@[simp] theorem State.setDT_draws (s : State) (b : Byte) : (s.setDT b).draws = s.draws := rfl
@[simp] theorem State.setDT_schedule (s : State) (b : Byte) : (s.setDT b).schedule = s.schedule := rfl

/-! ### `setST` -/

@[simp] theorem State.setST_v (s : State) (b : Byte) : (s.setST b).v = s.v := rfl
@[simp] theorem State.setST_i (s : State) (b : Byte) : (s.setST b).i = s.i := rfl
@[simp] theorem State.setST_pc (s : State) (b : Byte) : (s.setST b).pc = s.pc := rfl
@[simp] theorem State.setST_stack (s : State) (b : Byte) : (s.setST b).stack = s.stack := rfl
@[simp] theorem State.setST_sp (s : State) (b : Byte) : (s.setST b).sp = s.sp := rfl
@[simp] theorem State.setST_dt (s : State) (b : Byte) : (s.setST b).dt = s.dt := rfl
@[simp] theorem State.setST_st (s : State) (b : Byte) : (s.setST b).st = b := rfl
@[simp] theorem State.setST_fb (s : State) (b : Byte) : (s.setST b).fb = s.fb := rfl
@[simp] theorem State.setST_mem (s : State) (b : Byte) : (s.setST b).mem = s.mem := rfl
@[simp] theorem State.setST_key (s : State) (b : Byte) : (s.setST b).key = s.key := rfl
@[simp] theorem State.setST_latch (s : State) (b : Byte) : (s.setST b).latch = s.latch := rfl
@[simp] theorem State.setST_draws (s : State) (b : Byte) : (s.setST b).draws = s.draws := rfl
@[simp] theorem State.setST_schedule (s : State) (b : Byte) : (s.setST b).schedule = s.schedule := rfl

/-! ### `setFB` -/

@[simp] theorem State.setFB_v (s : State) (fb : Screen) : (s.setFB fb).v = s.v := rfl
@[simp] theorem State.setFB_i (s : State) (fb : Screen) : (s.setFB fb).i = s.i := rfl
@[simp] theorem State.setFB_pc (s : State) (fb : Screen) : (s.setFB fb).pc = s.pc := rfl
@[simp] theorem State.setFB_stack (s : State) (fb : Screen) : (s.setFB fb).stack = s.stack := rfl
@[simp] theorem State.setFB_sp (s : State) (fb : Screen) : (s.setFB fb).sp = s.sp := rfl
@[simp] theorem State.setFB_dt (s : State) (fb : Screen) : (s.setFB fb).dt = s.dt := rfl
@[simp] theorem State.setFB_st (s : State) (fb : Screen) : (s.setFB fb).st = s.st := rfl
@[simp] theorem State.setFB_fb (s : State) (fb : Screen) : (s.setFB fb).fb = fb := rfl
@[simp] theorem State.setFB_mem (s : State) (fb : Screen) : (s.setFB fb).mem = s.mem := rfl
@[simp] theorem State.setFB_key (s : State) (fb : Screen) : (s.setFB fb).key = s.key := rfl
@[simp] theorem State.setFB_latch (s : State) (fb : Screen) : (s.setFB fb).latch = s.latch := rfl
@[simp] theorem State.setFB_draws (s : State) (fb : Screen) : (s.setFB fb).draws = s.draws := rfl
@[simp] theorem State.setFB_schedule (s : State) (fb : Screen) : (s.setFB fb).schedule = s.schedule := rfl

/-! ### `setMem` -/

@[simp] theorem State.setMem_v (s : State) (m : Memory) : (s.setMem m).v = s.v := rfl
@[simp] theorem State.setMem_i (s : State) (m : Memory) : (s.setMem m).i = s.i := rfl
@[simp] theorem State.setMem_pc (s : State) (m : Memory) : (s.setMem m).pc = s.pc := rfl
@[simp] theorem State.setMem_stack (s : State) (m : Memory) : (s.setMem m).stack = s.stack := rfl
@[simp] theorem State.setMem_sp (s : State) (m : Memory) : (s.setMem m).sp = s.sp := rfl
@[simp] theorem State.setMem_dt (s : State) (m : Memory) : (s.setMem m).dt = s.dt := rfl
@[simp] theorem State.setMem_st (s : State) (m : Memory) : (s.setMem m).st = s.st := rfl
@[simp] theorem State.setMem_fb (s : State) (m : Memory) : (s.setMem m).fb = s.fb := rfl
@[simp] theorem State.setMem_mem (s : State) (m : Memory) : (s.setMem m).mem = m := rfl
@[simp] theorem State.setMem_key (s : State) (m : Memory) : (s.setMem m).key = s.key := rfl
@[simp] theorem State.setMem_latch (s : State) (m : Memory) : (s.setMem m).latch = s.latch := rfl
@[simp] theorem State.setMem_draws (s : State) (m : Memory) : (s.setMem m).draws = s.draws := rfl
@[simp] theorem State.setMem_schedule (s : State) (m : Memory) : (s.setMem m).schedule = s.schedule := rfl

/-! ### `setKey` -/

@[simp] theorem State.setKey_v (s : State) (k : Reg) (b : Bool) : (s.setKey k b).v = s.v := rfl
@[simp] theorem State.setKey_i (s : State) (k : Reg) (b : Bool) : (s.setKey k b).i = s.i := rfl
@[simp] theorem State.setKey_pc (s : State) (k : Reg) (b : Bool) : (s.setKey k b).pc = s.pc := rfl
@[simp] theorem State.setKey_stack (s : State) (k : Reg) (b : Bool) : (s.setKey k b).stack = s.stack := rfl
@[simp] theorem State.setKey_sp (s : State) (k : Reg) (b : Bool) : (s.setKey k b).sp = s.sp := rfl
@[simp] theorem State.setKey_dt (s : State) (k : Reg) (b : Bool) : (s.setKey k b).dt = s.dt := rfl
@[simp] theorem State.setKey_st (s : State) (k : Reg) (b : Bool) : (s.setKey k b).st = s.st := rfl
@[simp] theorem State.setKey_fb (s : State) (k : Reg) (b : Bool) : (s.setKey k b).fb = s.fb := rfl
@[simp] theorem State.setKey_mem (s : State) (k : Reg) (b : Bool) : (s.setKey k b).mem = s.mem := rfl
@[simp] theorem State.setKey_key (s : State) (k : Reg) (b : Bool) : (s.setKey k b).key = s.key.set k b := rfl
@[simp] theorem State.setKey_latch (s : State) (k : Reg) (b : Bool) : (s.setKey k b).latch = s.latch := rfl
@[simp] theorem State.setKey_draws (s : State) (k : Reg) (b : Bool) : (s.setKey k b).draws = s.draws := rfl
@[simp] theorem State.setKey_schedule (s : State) (k : Reg) (b : Bool) : (s.setKey k b).schedule = s.schedule := rfl

/-! ### `setRegs` -/

@[simp] theorem State.setRegs_v (s : State) (bytes : List Byte) : (s.setRegs bytes).v = writeRegs s.v 0 bytes := rfl
@[simp] theorem State.setRegs_i (s : State) (bytes : List Byte) : (s.setRegs bytes).i = s.i := rfl
@[simp] theorem State.setRegs_pc (s : State) (bytes : List Byte) : (s.setRegs bytes).pc = s.pc := rfl
@[simp] theorem State.setRegs_stack (s : State) (bytes : List Byte) : (s.setRegs bytes).stack = s.stack := rfl
@[simp] theorem State.setRegs_sp (s : State) (bytes : List Byte) : (s.setRegs bytes).sp = s.sp := rfl
@[simp] theorem State.setRegs_dt (s : State) (bytes : List Byte) : (s.setRegs bytes).dt = s.dt := rfl
@[simp] theorem State.setRegs_st (s : State) (bytes : List Byte) : (s.setRegs bytes).st = s.st := rfl
@[simp] theorem State.setRegs_fb (s : State) (bytes : List Byte) : (s.setRegs bytes).fb = s.fb := rfl
@[simp] theorem State.setRegs_mem (s : State) (bytes : List Byte) : (s.setRegs bytes).mem = s.mem := rfl
@[simp] theorem State.setRegs_key (s : State) (bytes : List Byte) : (s.setRegs bytes).key = s.key := rfl
@[simp] theorem State.setRegs_latch (s : State) (bytes : List Byte) : (s.setRegs bytes).latch = s.latch := rfl
@[simp] theorem State.setRegs_draws (s : State) (bytes : List Byte) : (s.setRegs bytes).draws = s.draws := rfl
@[simp] theorem State.setRegs_schedule (s : State) (bytes : List Byte) : (s.setRegs bytes).schedule = s.schedule := rfl

/-! ### `drawn` -/

@[simp] theorem State.drawn_v (s : State) : (s.drawn).v = s.v := rfl
@[simp] theorem State.drawn_i (s : State) : (s.drawn).i = s.i := rfl
@[simp] theorem State.drawn_pc (s : State) : (s.drawn).pc = s.pc := rfl
@[simp] theorem State.drawn_stack (s : State) : (s.drawn).stack = s.stack := rfl
@[simp] theorem State.drawn_sp (s : State) : (s.drawn).sp = s.sp := rfl
@[simp] theorem State.drawn_dt (s : State) : (s.drawn).dt = s.dt := rfl
@[simp] theorem State.drawn_st (s : State) : (s.drawn).st = s.st := rfl
@[simp] theorem State.drawn_fb (s : State) : (s.drawn).fb = s.fb := rfl
@[simp] theorem State.drawn_mem (s : State) : (s.drawn).mem = s.mem := rfl
@[simp] theorem State.drawn_key (s : State) : (s.drawn).key = s.key := rfl
@[simp] theorem State.drawn_latch (s : State) : (s.drawn).latch = s.latch := rfl
@[simp] theorem State.drawn_draws (s : State) : (s.drawn).draws = s.draws + 1 := rfl
@[simp] theorem State.drawn_schedule (s : State) : (s.drawn).schedule = s.schedule := rfl

/-! ### `setResultAndFlag` -/

@[simp] theorem State.setResultAndFlag_v (s : State) (x : Reg) (r : Byte × Bool) : (s.setResultAndFlag x r).v = (s.v.set x r.1).set VF (flagByte r.2) := rfl
@[simp] theorem State.setResultAndFlag_i (s : State) (x : Reg) (r : Byte × Bool) : (s.setResultAndFlag x r).i = s.i := rfl
@[simp] theorem State.setResultAndFlag_pc (s : State) (x : Reg) (r : Byte × Bool) : (s.setResultAndFlag x r).pc = s.pc := rfl
@[simp] theorem State.setResultAndFlag_stack (s : State) (x : Reg) (r : Byte × Bool) : (s.setResultAndFlag x r).stack = s.stack := rfl
@[simp] theorem State.setResultAndFlag_sp (s : State) (x : Reg) (r : Byte × Bool) : (s.setResultAndFlag x r).sp = s.sp := rfl
@[simp] theorem State.setResultAndFlag_dt (s : State) (x : Reg) (r : Byte × Bool) : (s.setResultAndFlag x r).dt = s.dt := rfl
@[simp] theorem State.setResultAndFlag_st (s : State) (x : Reg) (r : Byte × Bool) : (s.setResultAndFlag x r).st = s.st := rfl
@[simp] theorem State.setResultAndFlag_fb (s : State) (x : Reg) (r : Byte × Bool) : (s.setResultAndFlag x r).fb = s.fb := rfl
@[simp] theorem State.setResultAndFlag_mem (s : State) (x : Reg) (r : Byte × Bool) : (s.setResultAndFlag x r).mem = s.mem := rfl
@[simp] theorem State.setResultAndFlag_key (s : State) (x : Reg) (r : Byte × Bool) : (s.setResultAndFlag x r).key = s.key := rfl
@[simp] theorem State.setResultAndFlag_latch (s : State) (x : Reg) (r : Byte × Bool) : (s.setResultAndFlag x r).latch = s.latch := rfl
@[simp] theorem State.setResultAndFlag_draws (s : State) (x : Reg) (r : Byte × Bool) : (s.setResultAndFlag x r).draws = s.draws := rfl
@[simp] theorem State.setResultAndFlag_schedule (s : State) (x : Reg) (r : Byte × Bool) : (s.setResultAndFlag x r).schedule = s.schedule := rfl

/-! ### `commit` -/

@[simp] theorem State.commit_v (s : State) (f : Flow) : (s.commit f).v = s.v := rfl
@[simp] theorem State.commit_i (s : State) (f : Flow) : (s.commit f).i = s.i := rfl
@[simp] theorem State.commit_pc (s : State) (f : Flow) : (s.commit f).pc = f.target s.pc := rfl
@[simp] theorem State.commit_stack (s : State) (f : Flow) : (s.commit f).stack = s.stack := rfl
@[simp] theorem State.commit_sp (s : State) (f : Flow) : (s.commit f).sp = s.sp := rfl
@[simp] theorem State.commit_dt (s : State) (f : Flow) : (s.commit f).dt = s.dt := rfl
@[simp] theorem State.commit_st (s : State) (f : Flow) : (s.commit f).st = s.st := rfl
@[simp] theorem State.commit_fb (s : State) (f : Flow) : (s.commit f).fb = s.fb := rfl
@[simp] theorem State.commit_mem (s : State) (f : Flow) : (s.commit f).mem = s.mem := rfl
@[simp] theorem State.commit_key (s : State) (f : Flow) : (s.commit f).key = s.key := rfl
@[simp] theorem State.commit_latch (s : State) (f : Flow) : (s.commit f).latch = s.latch := rfl
@[simp] theorem State.commit_draws (s : State) (f : Flow) : (s.commit f).draws = s.draws := rfl
@[simp] theorem State.commit_schedule (s : State) (f : Flow) : (s.commit f).schedule = s.schedule := rfl

/-! ### `raise` -/

@[simp] theorem State.raise_v (s : State) (c : FaultCause) (info : Word) : (s.raise c info).v = s.v := rfl
@[simp] theorem State.raise_i (s : State) (c : FaultCause) (info : Word) : (s.raise c info).i = s.i := rfl
@[simp] theorem State.raise_pc (s : State) (c : FaultCause) (info : Word) : (s.raise c info).pc = s.pc := rfl
@[simp] theorem State.raise_stack (s : State) (c : FaultCause) (info : Word) : (s.raise c info).stack = s.stack := rfl
@[simp] theorem State.raise_sp (s : State) (c : FaultCause) (info : Word) : (s.raise c info).sp = s.sp := rfl
@[simp] theorem State.raise_dt (s : State) (c : FaultCause) (info : Word) : (s.raise c info).dt = s.dt := rfl
@[simp] theorem State.raise_st (s : State) (c : FaultCause) (info : Word) : (s.raise c info).st = s.st := rfl
@[simp] theorem State.raise_fb (s : State) (c : FaultCause) (info : Word) : (s.raise c info).fb = s.fb := rfl
@[simp] theorem State.raise_mem (s : State) (c : FaultCause) (info : Word) : (s.raise c info).mem = s.mem := rfl
@[simp] theorem State.raise_key (s : State) (c : FaultCause) (info : Word) : (s.raise c info).key = s.key := rfl
@[simp] theorem State.raise_latch (s : State) (c : FaultCause) (info : Word) : (s.raise c info).latch = { halted := true, code := c.code, pc := s.pc, info := info } := rfl
@[simp] theorem State.raise_draws (s : State) (c : FaultCause) (info : Word) : (s.raise c info).draws = s.draws := rfl
@[simp] theorem State.raise_schedule (s : State) (c : FaultCause) (info : Word) : (s.raise c info).schedule = s.schedule := rfl

/-! ### `setSchedule` -/

@[simp] theorem State.setSchedule_v (s : State) (es : List HostEvent) : (s.setSchedule es).v = s.v := rfl
@[simp] theorem State.setSchedule_i (s : State) (es : List HostEvent) : (s.setSchedule es).i = s.i := rfl
@[simp] theorem State.setSchedule_pc (s : State) (es : List HostEvent) : (s.setSchedule es).pc = s.pc := rfl
@[simp] theorem State.setSchedule_stack (s : State) (es : List HostEvent) : (s.setSchedule es).stack = s.stack := rfl
@[simp] theorem State.setSchedule_sp (s : State) (es : List HostEvent) : (s.setSchedule es).sp = s.sp := rfl
@[simp] theorem State.setSchedule_dt (s : State) (es : List HostEvent) : (s.setSchedule es).dt = s.dt := rfl
@[simp] theorem State.setSchedule_st (s : State) (es : List HostEvent) : (s.setSchedule es).st = s.st := rfl
@[simp] theorem State.setSchedule_fb (s : State) (es : List HostEvent) : (s.setSchedule es).fb = s.fb := rfl
@[simp] theorem State.setSchedule_mem (s : State) (es : List HostEvent) : (s.setSchedule es).mem = s.mem := rfl
@[simp] theorem State.setSchedule_key (s : State) (es : List HostEvent) : (s.setSchedule es).key = s.key := rfl
@[simp] theorem State.setSchedule_latch (s : State) (es : List HostEvent) : (s.setSchedule es).latch = s.latch := rfl
@[simp] theorem State.setSchedule_draws (s : State) (es : List HostEvent) : (s.setSchedule es).draws = s.draws := rfl
@[simp] theorem State.setSchedule_schedule (s : State) (es : List HostEvent) : (s.setSchedule es).schedule = es := rfl

/-! ### `V[x]` after each update -/

@[simp] theorem State.getV_setV (s : State) (x r : Reg) (b : Byte) :
    (s.setV x b).getV r = if r = x then b else s.getV r := by
  simp [State.getV, Vector.getElem_set, Fin.val_inj, eq_comm]

theorem State.getV_setV_self (s : State) (x : Reg) (b : Byte) : (s.setV x b).getV x = b := by simp

theorem State.getV_setV_of_ne (s : State) (x r : Reg) (b : Byte) (h : r ≠ x) :
    (s.setV x b).getV r = s.getV r := by simp [h]

@[simp] theorem State.getV_setResultAndFlag (s : State) (x r : Reg) (p : Byte × Bool) :
    (s.setResultAndFlag x p).getV r =
      if r = VF then flagByte p.2 else if r = x then p.1 else s.getV r := by
  simp [State.setResultAndFlag]

@[simp] theorem State.getV_setI (s : State) (r : Reg) (w : Word) : (s.setI w).getV r = s.getV r := rfl
@[simp] theorem State.getV_setDT (s : State) (r : Reg) (b : Byte) : (s.setDT b).getV r = s.getV r := rfl
@[simp] theorem State.getV_setST (s : State) (r : Reg) (b : Byte) : (s.setST b).getV r = s.getV r := rfl
@[simp] theorem State.getV_setFB (s : State) (r : Reg) (fb : Screen) : (s.setFB fb).getV r = s.getV r := rfl
@[simp] theorem State.getV_setMem (s : State) (r : Reg) (m : Memory) : (s.setMem m).getV r = s.getV r := rfl
@[simp] theorem State.getV_setKey (s : State) (r : Reg) (k : Reg) (b : Bool) : (s.setKey k b).getV r = s.getV r := rfl
@[simp] theorem State.getV_drawn (s : State) (r : Reg) : (s.drawn).getV r = s.getV r := rfl
@[simp] theorem State.getV_commit (s : State) (r : Reg) (f : Flow) : (s.commit f).getV r = s.getV r := rfl
@[simp] theorem State.getV_raise (s : State) (r : Reg) (c : FaultCause) (info : Word) : (s.raise c info).getV r = s.getV r := rfl

@[simp] theorem State.getV_setSchedule (s : State) (r : Reg) (es : List HostEvent) : (s.setSchedule es).getV r = s.getV r := rfl

/-! ### The events -/

@[simp] theorem State.getV_tick (s : State) (r : Reg) : s.tick.getV r = s.getV r := rfl

@[simp] theorem State.tick_v (s : State) : s.tick.v = s.v := rfl
@[simp] theorem State.tick_i (s : State) : s.tick.i = s.i := rfl
@[simp] theorem State.tick_pc (s : State) : s.tick.pc = s.pc := rfl
@[simp] theorem State.tick_stack (s : State) : s.tick.stack = s.stack := rfl
@[simp] theorem State.tick_sp (s : State) : s.tick.sp = s.sp := rfl
@[simp] theorem State.tick_dt (s : State) : s.tick.dt = countDown s.dt := rfl
@[simp] theorem State.tick_st (s : State) : s.tick.st = countDown s.st := rfl
@[simp] theorem State.tick_fb (s : State) : s.tick.fb = s.fb := rfl
@[simp] theorem State.tick_mem (s : State) : s.tick.mem = s.mem := rfl
@[simp] theorem State.tick_key (s : State) : s.tick.key = s.key := rfl
@[simp] theorem State.tick_latch (s : State) : s.tick.latch = s.latch := rfl
@[simp] theorem State.tick_draws (s : State) : s.tick.draws = s.draws := rfl
@[simp] theorem State.tick_schedule (s : State) : s.tick.schedule = s.schedule := rfl

@[simp] theorem State.resetEvent_v (s : State) : s.resetEvent.v = State.reset.v := rfl
@[simp] theorem State.resetEvent_i (s : State) : s.resetEvent.i = State.reset.i := rfl
@[simp] theorem State.resetEvent_pc (s : State) : s.resetEvent.pc = State.reset.pc := rfl
@[simp] theorem State.resetEvent_stack (s : State) : s.resetEvent.stack = State.reset.stack := rfl
@[simp] theorem State.resetEvent_sp (s : State) : s.resetEvent.sp = State.reset.sp := rfl
@[simp] theorem State.resetEvent_dt (s : State) : s.resetEvent.dt = State.reset.dt := rfl
@[simp] theorem State.resetEvent_st (s : State) : s.resetEvent.st = State.reset.st := rfl
@[simp] theorem State.resetEvent_fb (s : State) : s.resetEvent.fb = State.reset.fb := rfl
@[simp] theorem State.resetEvent_mem (s : State) : s.resetEvent.mem = State.reset.mem := rfl
@[simp] theorem State.resetEvent_key (s : State) : s.resetEvent.key = State.reset.key := rfl
@[simp] theorem State.resetEvent_latch (s : State) : s.resetEvent.latch = State.reset.latch := rfl
@[simp] theorem State.resetEvent_draws (s : State) : s.resetEvent.draws = s.draws := rfl
@[simp] theorem State.resetEvent_schedule (s : State) : s.resetEvent.schedule = s.schedule := rfl

@[simp] theorem State.load_v (s : State) (o : Nat) (bs : List Byte) : (s.load o bs).2.v = s.v := by
  unfold State.load; split <;> rfl
@[simp] theorem State.load_i (s : State) (o : Nat) (bs : List Byte) : (s.load o bs).2.i = s.i := by
  unfold State.load; split <;> rfl
@[simp] theorem State.load_pc (s : State) (o : Nat) (bs : List Byte) : (s.load o bs).2.pc = s.pc := by
  unfold State.load; split <;> rfl
@[simp] theorem State.load_stack (s : State) (o : Nat) (bs : List Byte) : (s.load o bs).2.stack = s.stack := by
  unfold State.load; split <;> rfl
@[simp] theorem State.load_sp (s : State) (o : Nat) (bs : List Byte) : (s.load o bs).2.sp = s.sp := by
  unfold State.load; split <;> rfl
@[simp] theorem State.load_dt (s : State) (o : Nat) (bs : List Byte) : (s.load o bs).2.dt = s.dt := by
  unfold State.load; split <;> rfl
@[simp] theorem State.load_st (s : State) (o : Nat) (bs : List Byte) : (s.load o bs).2.st = s.st := by
  unfold State.load; split <;> rfl
@[simp] theorem State.load_fb (s : State) (o : Nat) (bs : List Byte) : (s.load o bs).2.fb = s.fb := by
  unfold State.load; split <;> rfl
@[simp] theorem State.load_key (s : State) (o : Nat) (bs : List Byte) : (s.load o bs).2.key = s.key := by
  unfold State.load; split <;> rfl
@[simp] theorem State.load_latch (s : State) (o : Nat) (bs : List Byte) : (s.load o bs).2.latch = s.latch := by
  unfold State.load; split <;> rfl
@[simp] theorem State.load_draws (s : State) (o : Nat) (bs : List Byte) : (s.load o bs).2.draws = s.draws := by
  unfold State.load; split <;> rfl
@[simp] theorem State.load_schedule (s : State) (o : Nat) (bs : List Byte) : (s.load o bs).2.schedule = s.schedule := by
  unfold State.load; split <;> rfl

end Sys2Proof.Machine
end

