-- ==== Sys2Proof/Laws/Ops.lean ====
section
/-! SUPPORT. What the shared operations can do: the call stack, the block of registers, the two ways in which
an instruction ends, fault entry. -/

namespace Sys2Proof.Machine

/-! ### The two ways in which an instruction ends -/

@[simp] theorem finish_eq_next (f : Flow) (s t : State) : finish f s = .next t ↔ t = s.commit f := by
  simp [finish, eq_comm]

@[simp] theorem trap_eq_next (c : FaultCause) (info : Word) (s t : State) :
    trap c info s = .next t ↔ t = s.raise c info := by
  simp [trap, eq_comm]

@[simp] theorem trapOutside_eq_next (bad : Nat) (s t : State) :
    trapOutside bad s = .next t ↔
      t = s.raise .outOfBoundsMemoryAccess (BitVec.ofNat 16 bad) := by
  simp [trapOutside]

@[simp] theorem Flow.target_next (pc : Word) : Flow.target .next pc = pc + 2 := rfl
@[simp] theorem Flow.target_skip (pc : Word) : Flow.target .skip pc = pc + 4 := rfl
@[simp] theorem Flow.target_jump (t pc : Word) : Flow.target (.jump t) pc = t := rfl
@[simp] theorem Flow.target_retry (pc : Word) : Flow.target .retry pc = pc := rfl

/-- Fault entry leaves the core halted, with a code that is not 0 (R170, R177). -/
theorem State.raise_halted (s : State) (c : FaultCause) (info : Word) :
    (s.raise c info).latch.halted = true ∧ (s.raise c info).latch.code ≠ 0 := by
  cases c <;> simp [FaultCause.code]

/-! ### The call stack -/

/-- Everything `push` can do. -/
theorem State.push_cases (s : State) (a : Word) :
    (s.sp.val = 16 ∧ s.push a = none) ∨
    (∃ h : s.sp.val < 16, s.push a =
      some { s with stack := s.stack.set s.sp.val a, sp := ⟨s.sp.val + 1, by omega⟩ }) := by
  unfold State.push
  split
  · rename_i h; exact .inr ⟨h, rfl⟩
  · exact .inl ⟨by have := s.sp.isLt; omega, rfl⟩

/-- Everything `pop` can do. -/
theorem State.pop_cases (s : State) :
    (s.sp.val = 0 ∧ s.pop = none) ∨
    (∃ h : 0 < s.sp.val, s.pop =
      some (s.stack[s.sp.val - 1], { s with sp := ⟨s.sp.val - 1, by omega⟩ })) := by
  unfold State.pop
  split
  · rename_i h; exact .inr ⟨h, rfl⟩
  · exact .inl ⟨by omega, rfl⟩

/-! ### A block of registers -/

theorem writeRegs_getElem (v : Vector Byte 16) (k : Nat) (bytes : List Byte) (r : Nat) (hr : r < 16) :
    (writeRegs v k bytes)[r] = if k ≤ r then (bytes[r - k]?).getD v[r] else v[r] := by
  induction bytes generalizing v k with
  | nil => simp [writeRegs]
  | cons b rest ih =>
    rw [writeRegs, ih]
    rcases Nat.lt_trichotomy r k with h | h | h
    · rw [if_neg (by omega), if_neg (by omega), Vector.getElem_setIfInBounds_ne (by omega) (by omega)]
    · subst h; simp
    · obtain ⟨j, rfl⟩ : ∃ j, r = k + 1 + j := ⟨r - (k + 1), by omega⟩
      have h1 : k + 1 + j - k = j + 1 := by omega
      rw [Vector.getElem_setIfInBounds_ne (by omega) (by omega)]
      simp [h1, show k ≤ k + 1 + j by omega]

/-- `V[r]` after a block of registers is loaded. -/
theorem State.getV_setRegs (s : State) (bytes : List Byte) (r : Reg) :
    (s.setRegs bytes).getV r = (bytes[r.val]?).getD (s.getV r) := by
  have := writeRegs_getElem s.v 0 bytes r.val r.isLt
  simpa [State.getV, State.setRegs] using this

@[simp] theorem State.regsUpTo_length (s : State) (x : Reg) : (s.regsUpTo x).length = x.val + 1 := by
  simp [State.regsUpTo]

/-- The k-th byte that `STM` stores. -/
theorem State.regsUpTo_getElem (s : State) (x r : Reg) (h : r.val < (s.regsUpTo x).length) :
    (s.regsUpTo x)[r.val] = s.getV r := by
  simp [State.regsUpTo, State.getV]

end Sys2Proof.Machine
end

