-- ==== Sys2Proof/Laws/Display.lean ====
section
/-! SUPPORT. Drawing a sprite as one fold over the list of cells that its set bits hit, and what such a fold
does when no cell is hit twice. -/

namespace Sys2Proof.Machine

@[simp] theorem Screen.lit_dark (k : Nat) : Screen.lit Screen.dark k = false := by
  simp [Screen.lit, Screen.dark]

/-- The bit of a row that a flip changes. -/
theorem row_flip (row : BitVec 64) (c j : Nat) (hc : c < 64) :
    (row ^^^ (1#64 <<< c)).getLsbD j = (row.getLsbD j ^^ decide (j = c)) := by
  rw [BitVec.getLsbD_xor, BitVec.getLsbD_shiftLeft, BitVec.getLsbD_one]
  by_cases h : j = c
  · subst h; simp [hc]
  · by_cases hl : j < c
    · simp [h, hl]
    · simp [h, show j - c ≠ 0 by omega]

@[simp] theorem Screen.lit_flip (fb : Screen) (k j : Nat) (hk : k < 2048) :
    Screen.lit (Screen.flip fb k) j = (Screen.lit fb j ^^ decide (j = k)) := by
  have hkr : k / 64 < 32 := by omega
  unfold Screen.lit Screen.flip
  rw [dif_pos hkr]
  by_cases hj : j / 64 < 32
  · rw [dif_pos hj, dif_pos hj, Vector.getElem_set]
    by_cases hr : k / 64 = j / 64
    · rw [if_pos hr, row_flip _ _ _ (Nat.mod_lt _ (by decide))]
      simp only [hr, show (j % 64 = k % 64) ↔ j = k by omega]
    · rw [if_neg hr]; simp [show j ≠ k by omega]
  · rw [dif_neg hj, dif_neg hj]; simp [show j ≠ k by omega]

/-- Two frame buffers with the same cells are the same. -/
theorem Screen.ext_lit (a b : Screen) (h : ∀ k, Screen.lit a k = Screen.lit b k) : a = b := by
  apply Vector.ext
  intro r hr
  apply BitVec.eq_of_getLsbD_eq
  intro c hc
  have := h (r * 64 + c)
  unfold Screen.lit at this
  have h1 : (r * 64 + c) / 64 = r := by omega
  have h2 : (r * 64 + c) % 64 = c := by omega
  simpa [h1, h2, hr] using this

/-- The cells that the given columns of one sprite row hit, in order. -/
def rowCells (vx vy : Byte) (r : Nat) (b : Byte) (cs : List Nat) : List Nat :=
  (cs.filter (spriteBit b)).map (spriteCell vx vy r)

/-- The cells that a sprite hits, in order. -/
def spriteCells (vx vy : Byte) : Nat → List Byte → List Nat
  | _, [] => []
  | r, b :: bs => rowCells vx vy r b [0, 1, 2, 3, 4, 5, 6, 7] ++ spriteCells vx vy (r + 1) bs

theorem drawColumns_eq_foldl (vx vy : Byte) (r : Nat) (b : Byte) (cs : List Nat) (d : Drawing) :
    drawColumns vx vy r b cs d = (rowCells vx vy r b cs).foldl (fun d k => flipCell k d) d := by
  induction cs generalizing d with
  | nil => rfl
  | cons c cs ih =>
    rw [drawColumns, ih]
    by_cases h : spriteBit b c = true <;> simp [rowCells, h]

theorem drawRows_eq_foldl (vx vy : Byte) (r : Nat) (bs : List Byte) (d : Drawing) :
    drawRows vx vy r bs d = (spriteCells vx vy r bs).foldl (fun d k => flipCell k d) d := by
  induction bs generalizing r d with
  | nil => rfl
  | cons b bs ih => rw [drawRows, ih, drawColumns_eq_foldl, spriteCells, List.foldl_append]

/-- Flipping each of a list of different cells once: a cell changes iff it is listed, and there is a
collision iff one of them was lit to begin with. -/
theorem foldl_flipCell (cells : List Nat) (hn : cells.Nodup) (hb : ∀ k ∈ cells, k < 2048) (d : Drawing) :
    (∀ j, Screen.lit (cells.foldl (fun d k => flipCell k d) d).1 j =
      (Screen.lit d.1 j ^^ decide (j ∈ cells))) ∧
    (cells.foldl (fun d k => flipCell k d) d).2 = (d.2 || cells.any (Screen.lit d.1)) := by
  induction cells generalizing d with
  | nil => simp
  | cons k ks ih =>
    have hk : k < 2048 := hb k (by simp)
    have hn' := List.nodup_cons.1 hn
    obtain ⟨h1, h2⟩ := ih hn'.2 (fun j hj => hb j (by simp [hj])) (flipCell k d)
    refine ⟨fun j => ?_, ?_⟩
    · rw [List.foldl_cons, h1, flipCell, Screen.lit_flip _ _ _ hk]
      by_cases hj : j = k
      · subst hj; simp [hn'.1]
      · simp [hj]
    · have hsame : ks.any (Screen.lit (Screen.flip d.1 k)) = ks.any (Screen.lit d.1) := by
        rw [Bool.eq_iff_iff, List.any_eq_true, List.any_eq_true]
        refine exists_congr fun j => and_congr_right fun hj => ?_
        rw [Screen.lit_flip _ _ _ hk]
        have hjk : j ≠ k := fun h => hn'.1 (h ▸ hj)
        simp [hjk]
      rw [List.foldl_cons, h2, flipCell, hsame, List.any_cons, Bool.or_assoc]

/-- The frame-buffer index is in 0 to 2047 by construction (R143, R54). -/
theorem spriteCell_lt (vx vy : Byte) (r c : Nat) : spriteCell vx vy r c < 2048 := by
  unfold spriteCell Config.columns Config.rows; omega

/-- The map from sprite column and row to a cell is injective over a sprite (R146). -/
theorem spriteCell_inj (vx vy : Byte) (r r' c c' : Nat) (hc : c < 8) (hc' : c' < 8)
    (hr : r < r' + 32) (hr' : r' < r + 32) (h : spriteCell vx vy r c = spriteCell vx vy r' c') :
    r = r' ∧ c = c' := by
  unfold spriteCell Config.columns Config.rows at h; omega

theorem mem_rowCells (vx vy : Byte) (r : Nat) (b : Byte) (k : Nat) :
    k ∈ rowCells vx vy r b [0, 1, 2, 3, 4, 5, 6, 7] ↔
      ∃ c, c < 8 ∧ spriteBit b c = true ∧ k = spriteCell vx vy r c := by
  have : ∀ c, c ∈ [0, 1, 2, 3, 4, 5, 6, 7] ↔ c < 8 := by intro c; simp; omega
  simp only [rowCells, List.mem_map, List.mem_filter, this]
  constructor
  · rintro ⟨c, ⟨hc, hb⟩, rfl⟩; exact ⟨c, hc, hb, rfl⟩
  · rintro ⟨c, hc, hb, rfl⟩; exact ⟨c, ⟨hc, hb⟩, rfl⟩

theorem mem_spriteCells (vx vy : Byte) (r : Nat) (bs : List Byte) (k : Nat) :
    k ∈ spriteCells vx vy r bs ↔ ∃ j, ∃ h : j < bs.length, ∃ c, c < 8 ∧ spriteBit bs[j] c = true ∧
      k = spriteCell vx vy (r + j) c := by
  induction bs generalizing r with
  | nil => simp [spriteCells]
  | cons b bs ih =>
    rw [spriteCells, List.mem_append, mem_rowCells, ih]
    constructor
    · rintro (⟨c, hc, hb, rfl⟩ | ⟨j, hj, c, hc, hb, rfl⟩)
      · exact ⟨0, by simp, c, hc, hb, rfl⟩
      · exact ⟨j + 1, by simpa using hj, c, hc, by simpa using hb, by rw [Nat.add_right_comm, Nat.add_assoc]⟩
    · rintro ⟨j, hj, c, hc, hb, rfl⟩
      cases j with
      | zero => exact .inl ⟨c, hc, hb, rfl⟩
      | succ j =>
        exact .inr ⟨j, by simpa using hj, c, hc, by simpa using hb, by rw [Nat.add_right_comm, Nat.add_assoc]⟩

theorem rowCells_nodup (vx vy : Byte) (r : Nat) (b : Byte) :
    (rowCells vx vy r b [0, 1, 2, 3, 4, 5, 6, 7]).Nodup := by
  refine List.Nodup.map_on ?_ (List.Nodup.filter _ (by decide))
  intro c hc c' hc' h
  have : ∀ c, c ∈ [0, 1, 2, 3, 4, 5, 6, 7] → c < 8 := by intro c; simp; omega
  exact (spriteCell_inj vx vy r r c c' (this c (List.mem_filter.1 hc).1)
    (this c' (List.mem_filter.1 hc').1) (by omega) (by omega) h).2

/-- No cell is hit twice by a sprite of at most 32 rows (R146). -/
theorem spriteCells_nodup (vx vy : Byte) (r : Nat) (bs : List Byte) (h : bs.length ≤ 32) :
    (spriteCells vx vy r bs).Nodup := by
  induction bs generalizing r with
  | nil => simp [spriteCells]
  | cons b bs ih =>
    rw [List.length_cons] at h
    refine List.nodup_append'.2 ⟨rowCells_nodup vx vy r b, ih _ (by omega), ?_⟩
    intro k hk hk'
    obtain ⟨c, hc, -, rfl⟩ := (mem_rowCells _ _ _ _ _).1 hk
    obtain ⟨j, hj, c', hc', -, he⟩ := (mem_spriteCells _ _ _ _ _).1 hk'
    have := spriteCell_inj vx vy r (r + 1 + j) c c' hc hc' (by omega) (by omega) he
    omega

end Sys2Proof.Machine
end

