-- ==== Sys2Proof/Laws/Memory.lean ====
section
/-! SUPPORT. The laws of memory: a read after a write, the canonical form, the checked block operations. -/

namespace Sys2Proof.Machine

/-! ### What an unlisted address reads as -/

theorem font_length : Config.font.length = 80 := rfl

/-- Below 80 the font (R48). -/
theorem Memory.unlisted_font (a : Nat) (h : a < 80) :
    Memory.unlisted a = Config.font[a]'(by rw [font_length]; exact h) := by
  unfold Memory.unlisted; rw [List.getD_eq_getElem _ _ (by rw [font_length]; exact h)]

/-- From 80 on the fill (R201). -/
theorem Memory.unlisted_fill (a : Nat) (h : 80 ≤ a) : Memory.unlisted a = Config.memFill := by
  unfold Memory.unlisted; rw [List.getD_eq_default _ _ (by rw [font_length]; exact h)]

/-! ### One cell -/

theorem Memory.read_unlist (m : Memory) (a b : Nat) :
    (m.unlist a).read b = if b = a then Memory.unlisted a else m.read b := by
  induction m with
  | nil => by_cases h : b = a <;> simp [Memory.unlist, Memory.read, h]
  | cons c rest ih =>
    obtain ⟨k, v⟩ := c
    by_cases hk : k = a
    · subst hk
      rw [Memory.unlist, if_pos rfl, ih, Memory.read]
      by_cases hb : b = k
      · simp [hb]
      · simp [hb, Ne.symm hb]
    · rw [Memory.unlist, if_neg hk, Memory.read, Memory.read, ih]
      by_cases hb : b = a
      · subst hb; simp [hk]
      · simp [hb]

theorem Memory.read_insert (m : Memory) (a b : Nat) (v : Byte) (h : ∀ c ∈ m, c.1 ≠ a) :
    (m.insert a v).read b = if b = a then v else m.read b := by
  induction m with
  | nil => simp [Memory.insert, Memory.read, eq_comm (a := b)]
  | cons c rest ih =>
    obtain ⟨k, u⟩ := c
    have hk : k ≠ a := h (k, u) (by simp)
    rw [Memory.insert]
    split
    · simp [Memory.read, eq_comm (a := b)]
    · rw [Memory.read, Memory.read, ih fun c hc => h c (by simp [hc])]
      by_cases hb : b = a
      · subst hb; simp [hk]
      · simp [hb]

theorem Memory.unlist_ne (m : Memory) (a : Nat) : ∀ c ∈ m.unlist a, c ∈ m ∧ c.1 ≠ a := by
  induction m with
  | nil => simp [Memory.unlist]
  | cons d rest ih =>
    obtain ⟨k, v⟩ := d
    intro c hc
    rw [Memory.unlist] at hc
    split at hc
    · exact ⟨by simp [(ih c hc).1], (ih c hc).2⟩
    · rename_i hk
      rcases List.mem_cons.1 hc with rfl | hc
      · exact ⟨by simp, hk⟩
      · exact ⟨by simp [(ih c hc).1], (ih c hc).2⟩

theorem Memory.read_write (m : Memory) (a b : Nat) (v : Byte) :
    (m.write a v).read b = if b = a then v else m.read b := by
  unfold Memory.write
  split
  · rename_i h; rw [Memory.read_unlist, h]
  · rw [Memory.read_insert _ _ _ _ fun c hc => (m.unlist_ne a c hc).2, Memory.read_unlist]
    by_cases hb : b = a <;> simp [hb]

/-! ### The canonical form -/

theorem Memory.mem_insert (m : Memory) (a : Nat) (v : Byte) :
    ∀ c ∈ m.insert a v, c = (a, v) ∨ c ∈ m := by
  induction m with
  | nil => simp [Memory.insert]
  | cons d rest ih =>
    intro c hc
    rw [Memory.insert] at hc
    split at hc
    · simpa using hc
    · rcases List.mem_cons.1 hc with rfl | hc
      · simp
      · rcases ih c hc with h | h <;> simp [h]

theorem Memory.unlist_pairwise (m : Memory) (a : Nat) (h : m.Pairwise fun c d => c.1 < d.1) :
    (m.unlist a).Pairwise fun c d => c.1 < d.1 := by
  induction m with
  | nil => simp [Memory.unlist]
  | cons d rest ih =>
    rw [List.pairwise_cons] at h
    rw [Memory.unlist]
    split
    · exact ih h.2
    · exact List.pairwise_cons.2 ⟨fun c hc => h.1 c (Memory.unlist_ne rest a c hc).1, ih h.2⟩

theorem Memory.insert_pairwise (m : Memory) (a : Nat) (v : Byte) (hne : ∀ c ∈ m, c.1 ≠ a)
    (h : m.Pairwise fun c d => c.1 < d.1) : (m.insert a v).Pairwise fun c d => c.1 < d.1 := by
  induction m with
  | nil => simp [Memory.insert]
  | cons d rest ih =>
    obtain ⟨k, u⟩ := d
    have hk : k ≠ a := hne (k, u) (by simp)
    have hr := List.pairwise_cons.1 h
    rw [Memory.insert]
    split
    · rename_i hlt
      refine List.pairwise_cons.2 ⟨fun c hc => ?_, h⟩
      rcases List.mem_cons.1 hc with rfl | hc
      · exact hlt
      · exact lt_trans hlt (hr.1 c hc)
    · rename_i hlt
      refine List.pairwise_cons.2 ⟨fun c hc => ?_, ih (fun c hc => hne c (by simp [hc])) hr.2⟩
      rcases Memory.mem_insert rest a v c hc with rfl | hc
      · exact lt_of_le_of_ne (not_lt.1 hlt) hk
      · exact hr.1 c hc

theorem Memory.write_wf (m : Memory) (a : Nat) (v : Byte) (ha : a < Config.memSize) (h : m.wf) :
    (m.write a v).wf := by
  have hu : (m.unlist a).wf :=
    ⟨m.unlist_pairwise a h.1, fun c hc => h.2 c (m.unlist_ne a c hc).1⟩
  unfold Memory.write
  split
  · exact hu
  · rename_i hv
    refine ⟨Memory.insert_pairwise _ a v (fun c hc => (m.unlist_ne a c hc).2) hu.1, fun c hc => ?_⟩
    rcases Memory.mem_insert _ a v c hc with rfl | hc
    · exact ⟨ha, hv⟩
    · exact hu.2 c hc

theorem Memory.reset_wf : State.reset.mem.wf := by simp [State.reset, Memory.wf]

/-! ### Blocks -/

theorem Memory.read_writeBytes (m : Memory) (a b : Nat) (bs : List Byte) :
    (m.writeBytes a bs).read b =
      if a ≤ b then (bs[b - a]?).getD (m.read b) else m.read b := by
  induction bs generalizing m a with
  | nil => simp [Memory.writeBytes]
  | cons v rest ih =>
    rw [Memory.writeBytes, ih, Memory.read_write]
    rcases Nat.lt_trichotomy b a with h | h | h
    · rw [if_neg (by omega), if_neg (by omega), if_neg (by omega)]
    · subst h; simp
    · obtain ⟨k, rfl⟩ : ∃ k, b = a + 1 + k := ⟨b - (a + 1), by omega⟩
      have h1 : a + 1 + k - a = k + 1 := by omega
      have h2 : a + 1 + k ≠ a := by omega
      simp [h1, h2, show a ≤ a + 1 + k by omega]

theorem Memory.read_writeBytes_of_outside (m : Memory) (a b : Nat) (bs : List Byte)
    (h : b < a ∨ a + bs.length ≤ b) : (m.writeBytes a bs).read b = m.read b := by
  rw [Memory.read_writeBytes]
  split
  · rw [List.getElem?_eq_none (by omega), Option.getD_none]
  · rfl

theorem Memory.read_writeBytes_of_inside (m : Memory) (a k : Nat) (bs : List Byte)
    (h : k < bs.length) : (m.writeBytes a bs).read (a + k) = bs[k] := by
  rw [Memory.read_writeBytes, if_pos (by omega), show a + k - a = k by omega,
    List.getElem?_eq_getElem h, Option.getD_some]

theorem Memory.writeBytes_wf (m : Memory) (a : Nat) (bs : List Byte)
    (ha : a + bs.length ≤ Config.memSize) (h : m.wf) : (m.writeBytes a bs).wf := by
  induction bs generalizing m a with
  | nil => exact h
  | cons v rest ih =>
    rw [List.length_cons] at ha
    exact ih _ _ (by omega) (Memory.write_wf m a v (by omega) h)

@[simp] theorem Memory.readBytes_length (m : Memory) (a n : Nat) : (m.readBytes a n).length = n := by
  induction n generalizing a with
  | zero => rfl
  | succ n ih => simp [Memory.readBytes, ih]

theorem Memory.readBytes_getElem? (m : Memory) (a n k : Nat) (h : k < n) :
    (m.readBytes a n)[k]? = some (m.read (a + k)) := by
  induction n generalizing a k with
  | zero => omega
  | succ n ih =>
    rw [Memory.readBytes]
    cases k with
    | zero => simp
    | succ k => rw [List.getElem?_cons_succ, ih _ _ (by omega), show a + 1 + k = a + (k + 1) by omega]

theorem Memory.readBytes_getElem (m : Memory) (a n k : Nat) (h : k < (m.readBytes a n).length) :
    (m.readBytes a n)[k] = m.read (a + k) := by
  have := Memory.readBytes_getElem? m a n k (by simpa using h)
  rwa [List.getElem?_eq_getElem h, Option.some_inj] at this

/-! ### The range check (R46) and the checked operations -/

/-- A range is inside memory when it is empty or ends at 4095 at the latest. -/
theorem firstOutside_eq_none (a n : Nat) :
    firstOutside a n = none ↔ n = 0 ∨ a + n ≤ Config.memSize := by
  unfold firstOutside Config.memSize; split <;> simp <;> omega

/-- The address reported for a range that is not inside memory. -/
theorem firstOutside_eq_some (a n b : Nat) :
    firstOutside a n = some b ↔ 0 < n ∧ Config.memSize < a + n ∧ b = max a Config.memSize := by
  unfold firstOutside Config.memSize; split <;> simp <;> omega

/-- Everything a checked read of a block can do. -/
theorem Memory.readBlock_cases (m : Memory) (a n : Nat) :
    ((n = 0 ∨ a + n ≤ Config.memSize) ∧ m.readBlock a n = .ok (m.readBytes a n)) ∨
    (0 < n ∧ Config.memSize < a + n ∧ m.readBlock a n = .error (max a Config.memSize)) := by
  unfold Memory.readBlock
  cases h : firstOutside a n with
  | none => exact .inl ⟨(firstOutside_eq_none a n).1 h, rfl⟩
  | some b =>
    obtain ⟨h1, h2, rfl⟩ := (firstOutside_eq_some a n b).1 h
    exact .inr ⟨h1, h2, rfl⟩

/-- Everything a checked write of a block can do. -/
theorem Memory.writeBlock_cases (m : Memory) (a : Nat) (bs : List Byte) :
    ((bs.length = 0 ∨ a + bs.length ≤ Config.memSize) ∧
      m.writeBlock a bs = .ok (m.writeBytes a bs)) ∨
    (0 < bs.length ∧ Config.memSize < a + bs.length ∧
      m.writeBlock a bs = .error (max a Config.memSize)) := by
  unfold Memory.writeBlock
  cases h : firstOutside a bs.length with
  | none => exact .inl ⟨(firstOutside_eq_none _ _).1 h, rfl⟩
  | some b =>
    obtain ⟨h1, h2, rfl⟩ := (firstOutside_eq_some _ _ b).1 h
    exact .inr ⟨h1, h2, rfl⟩

/-- A checked write keeps the canonical form. -/
theorem Memory.writeBlock_wf (m m' : Memory) (a : Nat) (bs : List Byte) (h : m.wf)
    (hw : m.writeBlock a bs = .ok m') : m'.wf := by
  rcases m.writeBlock_cases a bs with ⟨hr, he⟩ | ⟨-, -, he⟩
  · rw [he, Except.ok.injEq] at hw
    subst hw
    rcases hr with hr | hr
    · rw [List.length_eq_zero_iff.1 hr]; exact h
    · exact m.writeBytes_wf a bs hr h
  · simp [he] at hw

/-- A write of one byte inside memory keeps the canonical form. -/
theorem Memory.memWrite_wf (m m' : Memory) (a : Nat) (v : Byte) (h : m.wf)
    (hw : m.memWrite a v = .ok m') : m'.wf := by
  unfold Memory.memWrite at hw
  split at hw
  · simp at hw
  · rw [Except.ok.injEq] at hw
    exact hw ▸ m.write_wf a v (by omega) h

end Sys2Proof.Machine
end

