-- ==== Sys2Proof/Laws/PerInstr.lean ====
section
/-! SUPPORT. Statements about every instruction as syntax, one lemma per constructor. -/

namespace Sys2Proof.Laws

/-- The family of an instruction: the top four bits of its pattern (R61, R64). -/
def opcodeFamily : Instr → Nibble
  | .cls | .ret => 0x0
  | .jp _ => 0x1
  | .call _ => 0x2
  | .se _ _ => 0x3
  | .sne _ _ => 0x4
  | .ser _ _ => 0x5
  | .ldi _ _ => 0x6
  | .addi _ _ => 0x7
  | .mov _ _ | .or _ _ | .and _ _ | .xor _ _ | .add _ _ | .sub _ _ | .shr _ _ | .subn _ _ | .shl _ _ => 0x8
  | .sner _ _ => 0x9
  | .lda _ => 0xA
  | .jpv0 _ => 0xB
  | .rnd _ _ => 0xC
  | .drw _ _ _ => 0xD
  | .skp _ | .sknp _ => 0xE
  | .gdt _ | .wkey _ | .sdt _ | .sst _ | .adda _ | .font _ | .bcd _ | .stm _ | .ldm _ => 0xF

/-- The top four bits of an instruction's word are its family (R61, R64). -/
def EncodedFamily.Statement (i : Instr) : Prop := fieldOp (encode i) = opcodeFamily i

theorem EncodedFamily.cls : EncodedFamily.Statement .cls := by
  unfold EncodedFamily.Statement; decide
theorem EncodedFamily.ret : EncodedFamily.Statement .ret := by
  unfold EncodedFamily.Statement; decide
theorem EncodedFamily.jp (nnn : Addr) : EncodedFamily.Statement (.jp nnn) := fieldOp_wordNNN _ _
theorem EncodedFamily.call (nnn : Addr) : EncodedFamily.Statement (.call nnn) := fieldOp_wordNNN _ _
theorem EncodedFamily.se (x : Reg) (nn : Byte) : EncodedFamily.Statement (.se x nn) := fieldOp_wordXNN _ _ _
theorem EncodedFamily.sne (x : Reg) (nn : Byte) : EncodedFamily.Statement (.sne x nn) := fieldOp_wordXNN _ _ _
theorem EncodedFamily.ser (x y : Reg) : EncodedFamily.Statement (.ser x y) := fieldOp_wordXYN _ _ _ _
theorem EncodedFamily.ldi (x : Reg) (nn : Byte) : EncodedFamily.Statement (.ldi x nn) := fieldOp_wordXNN _ _ _
theorem EncodedFamily.addi (x : Reg) (nn : Byte) : EncodedFamily.Statement (.addi x nn) := fieldOp_wordXNN _ _ _
theorem EncodedFamily.mov (x y : Reg) : EncodedFamily.Statement (.mov x y) := fieldOp_wordXYN _ _ _ _
theorem EncodedFamily.or (x y : Reg) : EncodedFamily.Statement (.or x y) := fieldOp_wordXYN _ _ _ _
theorem EncodedFamily.and (x y : Reg) : EncodedFamily.Statement (.and x y) := fieldOp_wordXYN _ _ _ _
theorem EncodedFamily.xor (x y : Reg) : EncodedFamily.Statement (.xor x y) := fieldOp_wordXYN _ _ _ _
theorem EncodedFamily.add (x y : Reg) : EncodedFamily.Statement (.add x y) := fieldOp_wordXYN _ _ _ _
theorem EncodedFamily.sub (x y : Reg) : EncodedFamily.Statement (.sub x y) := fieldOp_wordXYN _ _ _ _
theorem EncodedFamily.shr (x y : Reg) : EncodedFamily.Statement (.shr x y) := fieldOp_wordXYN _ _ _ _
theorem EncodedFamily.subn (x y : Reg) : EncodedFamily.Statement (.subn x y) := fieldOp_wordXYN _ _ _ _
theorem EncodedFamily.shl (x y : Reg) : EncodedFamily.Statement (.shl x y) := fieldOp_wordXYN _ _ _ _
theorem EncodedFamily.sner (x y : Reg) : EncodedFamily.Statement (.sner x y) := fieldOp_wordXYN _ _ _ _
theorem EncodedFamily.lda (nnn : Addr) : EncodedFamily.Statement (.lda nnn) := fieldOp_wordNNN _ _
theorem EncodedFamily.jpv0 (nnn : Addr) : EncodedFamily.Statement (.jpv0 nnn) := fieldOp_wordNNN _ _
theorem EncodedFamily.rnd (x : Reg) (nn : Byte) : EncodedFamily.Statement (.rnd x nn) := fieldOp_wordXNN _ _ _
theorem EncodedFamily.drw (x y : Reg) (n : Nibble) : EncodedFamily.Statement (.drw x y n) := fieldOp_wordXYN _ _ _ _
theorem EncodedFamily.skp (x : Reg) : EncodedFamily.Statement (.skp x) := fieldOp_wordXNN _ _ _
theorem EncodedFamily.sknp (x : Reg) : EncodedFamily.Statement (.sknp x) := fieldOp_wordXNN _ _ _
theorem EncodedFamily.gdt (x : Reg) : EncodedFamily.Statement (.gdt x) := fieldOp_wordXNN _ _ _
theorem EncodedFamily.wkey (x : Reg) : EncodedFamily.Statement (.wkey x) := fieldOp_wordXNN _ _ _
theorem EncodedFamily.sdt (x : Reg) : EncodedFamily.Statement (.sdt x) := fieldOp_wordXNN _ _ _
theorem EncodedFamily.sst (x : Reg) : EncodedFamily.Statement (.sst x) := fieldOp_wordXNN _ _ _
theorem EncodedFamily.adda (x : Reg) : EncodedFamily.Statement (.adda x) := fieldOp_wordXNN _ _ _
theorem EncodedFamily.font (x : Reg) : EncodedFamily.Statement (.font x) := fieldOp_wordXNN _ _ _
theorem EncodedFamily.bcd (x : Reg) : EncodedFamily.Statement (.bcd x) := fieldOp_wordXNN _ _ _
theorem EncodedFamily.stm (x : Reg) : EncodedFamily.Statement (.stm x) := fieldOp_wordXNN _ _ _
theorem EncodedFamily.ldm (x : Reg) : EncodedFamily.Statement (.ldm x) := fieldOp_wordXNN _ _ _

end Sys2Proof.Laws
end

