-- ==== Sys2Proof/Laws/Step.lean ====
section
/-! SUPPORT. What the fetch, one event and one step can do. -/

namespace Sys2Proof.Machine

/-- Everything a fetch can do (R43). -/
theorem State.fetch_cases (s : State) :
    (s.pc.toNat + 1 < Config.memSize ∧
      s.fetch = .ok (bigEndian (s.mem.read s.pc.toNat) (s.mem.read (s.pc.toNat + 1)))) ∨
    (Config.memSize ≤ s.pc.toNat + 1 ∧ s.fetch = .error (max s.pc.toNat Config.memSize)) := by
  unfold State.fetch Memory.memRead
  by_cases h : Config.memSize ≤ s.pc.toNat
  · exact .inr ⟨by omega, by simp [h]⟩
  · by_cases h' : Config.memSize ≤ s.pc.toNat + 1
    · refine .inr ⟨h', ?_⟩
      simp [h, h']; omega
    · exact .inl ⟨by omega, by simp [h, h']⟩

/-- Everything a `step` event can do (R67, R179). -/
theorem instructionStep_cases (s : State) :
    (s.latch.halted = true ∧ instructionStep s = .next s) ∨
    (s.latch.halted = false ∧ ∃ bad, s.fetch = .error bad ∧ instructionStep s = trapOutside bad s) ∨
    (s.latch.halted = false ∧ ∃ w, s.fetch = .ok w ∧ decodeWord w = none ∧
      instructionStep s = trap .unknownOpcode w s) ∨
    (s.latch.halted = false ∧ ∃ w i, s.fetch = .ok w ∧ decodeWord w = some i ∧
      instructionStep s = exec i s) := by
  unfold instructionStep
  cases hh : s.latch.halted with
  | true => exact .inl ⟨rfl, by simp⟩
  | false =>
    cases hf : s.fetch with
    | error bad => exact .inr (.inl ⟨rfl, bad, rfl, by simp⟩)
    | ok w =>
      cases hd : decodeWord w with
      | none => exact .inr (.inr (.inl ⟨rfl, w, rfl, hd, by simp [hd]⟩))
      | some i => exact .inr (.inr (.inr ⟨rfl, w, i, rfl, hd, by simp [hd]⟩))

theorem step_of_schedule_nil (s : State) (h : s.schedule = []) : step s = instructionStep s := by
  simp [step, h]

theorem step_of_schedule_cons (s : State) (e : HostEvent) (rest : List HostEvent)
    (h : s.schedule = e :: rest) : step s = deliver e (s.setSchedule rest) := by
  simp [step, h]

/-- A `step` listed in the schedule runs the core on the state without it. -/
theorem step_of_schedule_step (s : State) (rest : List HostEvent) (h : s.schedule = .step :: rest) :
    step s = instructionStep (s.setSchedule rest) := step_of_schedule_cons s .step rest h

@[simp] theorem State.fetch_setSchedule (s : State) (es : List HostEvent) :
    (s.setSchedule es).fetch = s.fetch := rfl

/-- A load is well formed when it ends inside memory (R53). -/
theorem wellFormedLoad_iff (offset : Nat) (bytes : List Byte) :
    wellFormedLoad offset bytes = true ↔ offset + bytes.length ≤ 4096 := by
  unfold wellFormedLoad; exact decide_eq_true_iff

/-- Everything a load can do (R53). -/
theorem State.load_cases (s : State) (offset : Nat) (bytes : List Byte) :
    (offset + bytes.length ≤ 4096 ∧
      s.load offset bytes = (.accepted, s.setMem (s.mem.writeBytes offset bytes))) ∨
    (4096 < offset + bytes.length ∧ s.load offset bytes = (.outOfBoundsMemoryAccess, s)) := by
  unfold State.load
  split
  · rename_i h; exact .inl ⟨(wellFormedLoad_iff _ _).1 h, rfl⟩
  · rename_i h; exact .inr ⟨by rw [wellFormedLoad_iff] at h; omega, rfl⟩

/-- A load keeps the canonical form of memory. -/
theorem State.load_wf (s : State) (offset : Nat) (bytes : List Byte) (h : s.mem.wf) :
    (s.load offset bytes).2.mem.wf := by
  rcases s.load_cases offset bytes with ⟨hr, e⟩ | ⟨-, e⟩
  · rw [e]; exact Memory.writeBytes_wf _ _ _ hr h
  · rw [e]; exact h

end Sys2Proof.Machine
end

