-- ==== Sys2Proof/Laws/Safety.lean ====
section
/-! SUPPORT. Runs of several events, and the parts of the invariant. -/

namespace Sys2Proof.Machine

@[simp] theorem run_zero (s : State) : run 0 s = .next s := rfl

/-- A run goes on from the state after its first event. -/
theorem run_succ (n : Nat) (s t : State) (h : step s = .next t) : run (n + 1) s = run n t := by
  rw [run, h]

/-- The latch after reset is consistent. -/
theorem State.latchConsistent_of_clear (s : State) (h : s.latch = FaultLatch.clear) :
    s.latchConsistent := by
  refine ⟨fun _ => h, fun hh => ?_⟩
  simp [h, FaultLatch.clear] at hh

/-- Taking any fault but the unreachable one (R172) leaves the latch consistent. -/
theorem State.raise_latchConsistent (s : State) (c : FaultCause) (info : Word)
    (h : c ≠ .invalidRegisterIndex) : (s.raise c info).latchConsistent := by
  refine ⟨fun hh => by simp at hh, fun _ => ⟨rfl, ?_⟩⟩
  cases c <;> simp_all [FaultCause.code]

end Sys2Proof.Machine
end

