-- ==== Sys2Proof/Tests/Slice0.lean ====
section
/-! SUPPORT. Tests of the model, and for every statement with hypotheses a state and operands that meet them.
The expected results of the step tests are the vectors of spec/95_test_vectors.md (named T…), which the spec
computes from its rules; the words of the decode tests are written out from R62 and R64. -/

namespace Sys2Proof.Tests

open Sys2Proof.Machine Sys2Proof.Spec

/-! ### Helpers -/

/-- The state after reset with some registers set. -/
def regs (l : List (Reg × Byte)) : State := l.foldl (fun s p => s.setV p.1 p.2) State.reset

/-- `I` set. -/
def atI (a : Word) (s : State) : State := s.setI a

/-- `PC` set. -/
def atPc (a : Word) (s : State) : State := { s with pc := a }

/-- Bytes put into memory. -/
def bytesAt (a : Nat) (bs : List Byte) (s : State) : State := s.setMem (s.mem.writeBytes a bs)

/-- Cells of the frame buffer lit. -/
def lit (ks : List Nat) : Screen := ks.foldl Screen.flip Screen.dark

/-- A call stack with the given entries in use. -/
def stacked (l : List Word) (n : Fin 17) (s : State) : State :=
  { s with stack := Vector.ofFn fun k => l.getD k.val 0, sp := n }

/-- Keys pressed. -/
def pressed (ks : List Reg) (s : State) : State := ks.foldl (fun s k => s.setKey k true) s

/-- The state after the instruction word `w` is placed at `PC` and one step is taken. -/
def after (w : Nat) (s : State) : State :=
  match step (s.withFetchWord 16 w) with
  | .next t => t
  | _ => s

/-- The state after one event. -/
def afterEvent (e : HostEvent) (s : State) : State :=
  match step (s.setSchedule [e]) with
  | .next t => t
  | _ => s

/-- Some bytes read back from memory. -/
def dump (s : State) (a n : Nat) : List Byte := s.mem.readBytes a n

/-- The fault latch as a tuple: halted, code, address, information. -/
def latch (s : State) : Bool × Nat × Nat × Nat :=
  (s.latch.halted, s.latch.code.toNat, s.latch.pc.toNat, s.latch.info.toNat)

/-! ### Well-formed words and loads: every check with an ill-formed term that it refuses -/

/-- One illegal word for each row of the table of R66 (TU1 to TU6). -/
theorem test_wellFormedWord_refuses : wellFormedWord 0x0000 = false ∧ wellFormedWord 0x00E1 = false ∧
    wellFormedWord 0x5011 = false ∧ wellFormedWord 0x8008 = false ∧ wellFormedWord 0x800F = false ∧
    wellFormedWord 0x9001 = false ∧ wellFormedWord 0xE09D = false ∧ wellFormedWord 0xE1A2 = false ∧
    wellFormedWord 0xF102 = false ∧ wellFormedWord 0xF175 = false := by decide

theorem test_wellFormedWord_accepts : wellFormedWord 0x00E0 = true ∧ wellFormedWord 0x00EE = true ∧
    wellFormedWord 0x5AB0 = true ∧ wellFormedWord 0x8ABE = true ∧ wellFormedWord 0xEA9E = true ∧
    wellFormedWord 0xFA65 = true := by decide

/-- TE13: a byte at 4096 is refused. -/
theorem test_wellFormedLoad_refuses : wellFormedLoad 0x1000 [0x00] = false := by decide

/-- TE11, TE12: a byte at 4095 is accepted, and so is nothing at 4096. -/
theorem test_wellFormedLoad_accepts :
    wellFormedLoad 0xFFF [0xAB] = true ∧ wellFormedLoad 0x1000 [] = true := by decide

/-- Memories that are not in the canonical form: unsorted, repeated, outside, equal to the unlisted value. -/
theorem test_memory_wf_refuses : ¬ Memory.wf [(5, 1), (4, 1)] ∧ ¬ Memory.wf [(5, 1), (5, 2)] ∧
    ¬ Memory.wf [(4096, 1)] ∧ ¬ Memory.wf [(0, 0xF0)] ∧ ¬ Memory.wf [(0x200, 0)] := by decide

theorem test_memory_wf_accepts : Memory.wf [(0, 0x00), (0x200, 0x12), (0xFFF, 0xFF)] := by decide

/-! ### Decoding: words written out from R62 and R64 -/

theorem test_decode_fixed : decodeWord 0b0000000011100000 = some .cls ∧
    decodeWord 0b0000000011101110 = some .ret := by decide

theorem test_decode_nnn : decodeWord 0b0001101010111100 = some (.jp 0xABC) ∧
    decodeWord 0b0010001100000001 = some (.call 0x301) ∧
    decodeWord 0b1010111111111110 = some (.lda 0xFFE) ∧
    decodeWord 0b1011100000000001 = some (.jpv0 0x801) := by decide

theorem test_decode_xnn : decodeWord 0b0011101001000010 = some (.se 10 0x42) ∧
    decodeWord 0b0100101001111111 = some (.sne 10 0x7F) ∧
    decodeWord 0b0110001100101010 = some (.ldi 3 0x2A) ∧
    decodeWord 0b0111000111111111 = some (.addi 1 0xFF) ∧
    decodeWord 0b1100000100001111 = some (.rnd 1 0x0F) := by decide

theorem test_decode_xyn : decodeWord 0b0101000100100000 = some (.ser 1 2) ∧
    decodeWord 0b1001111000010000 = some (.sner 14 1) ∧
    decodeWord 0b1101001000110101 = some (.drw 2 3 5) := by decide

theorem test_decode_family_8 : decodeWord 0b1000000100100000 = some (.mov 1 2) ∧
    decodeWord 0b1000000100100001 = some (.or 1 2) ∧
    decodeWord 0b1000000100100010 = some (.and 1 2) ∧
    decodeWord 0b1000000100100011 = some (.xor 1 2) ∧
    decodeWord 0b1000000100100100 = some (.add 1 2) ∧
    decodeWord 0b1000000100100101 = some (.sub 1 2) ∧
    decodeWord 0b1000000100100110 = some (.shr 1 2) ∧
    decodeWord 0b1000000100100111 = some (.subn 1 2) ∧
    decodeWord 0b1000000100101110 = some (.shl 1 2) := by decide

theorem test_decode_family_E : decodeWord 0b1110000110011110 = some (.skp 1) ∧
    decodeWord 0b1110111110100001 = some (.sknp 15) := by decide

theorem test_decode_family_F : decodeWord 0b1111001100000111 = some (.gdt 3) ∧
    decodeWord 0b1111001000001010 = some (.wkey 2) ∧
    decodeWord 0b1111000000010101 = some (.sdt 0) ∧
    decodeWord 0b1111000100011000 = some (.sst 1) ∧
    decodeWord 0b1111000100011110 = some (.adda 1) ∧
    decodeWord 0b1111000000101001 = some (.font 0) ∧
    decodeWord 0b1111000000110011 = some (.bcd 0) ∧
    decodeWord 0b1111001001010101 = some (.stm 2) ∧
    decodeWord 0b1111111001100101 = some (.ldm 14) := by decide

/-- TU1 to TU6: illegal words of each family. -/
theorem test_decode_refuses : decodeWord 0x0123 = none ∧ decodeWord 0x0EE0 = none ∧
    decodeWord 0x5AB8 = none ∧ decodeWord 0x8ABF = none ∧ decodeWord 0x912F = none ∧
    decodeWord 0xE1A0 = none ∧ decodeWord 0xF185 = none := by decide

/-- Fewer than two bytes are no instruction (R60). -/
theorem test_decodeBytes_truncated : decodeBytes [0x12] = .error .truncated := rfl

theorem test_decodeTableWord : decodeTableWord 16 0x8124 = some (.add 1 2) ∧
    decodeTableWord 16 0x5121 = none := by decide

/-! ### Fetch -/

/-- TF1: the fetch of the last two bytes is legal. -/
theorem test_fetch_top : (after 0x6011 (atPc 0xFFE State.reset)).getV 0 = 0x11 ∧
    (after 0x6011 (atPc 0xFFE State.reset)).pc = 0x1000 := by decide

/-- TF5: an odd `PC` is legal. -/
theorem test_fetch_odd : (after 0x6011 (atPc 0x201 State.reset)).getV 0 = 0x11 ∧
    (after 0x6011 (atPc 0x201 State.reset)).pc = 0x203 := by decide

/-- TF2, TF4, TF7: the fetch faults, and the fetch of memory that nothing has written. -/
theorem test_fetch_faults :
    latch (afterEvent .step (atPc 0xFFF State.reset)) = (true, 1, 0xFFF, 0x1000) ∧
    latch (afterEvent .step (atPc 0x10FE State.reset)) = (true, 1, 0x10FE, 0x10FE) ∧
    latch (afterEvent .step State.reset) = (true, 5, 0x200, 0x0000) := by decide

/-- TF8: a halted core does nothing. -/
theorem test_halted_step : afterEvent .step (afterEvent .step State.reset) =
    afterEvent .step State.reset := by decide

/-! ### Register load, arithmetic, logic -/

/-- TA1 -/
theorem test_ldi : (after 0x6F7B State.reset).getV 15 = 0x7B ∧
    (after 0x6F7B State.reset).pc = 0x202 := by decide

/-- TA2: the sum wraps and there is no flag. -/
theorem test_addi : (after 0x7001 (regs [(0, 0xFF)])).getV 0 = 0x00 ∧
    (after 0x7001 (regs [(0, 0xFF)])).getV 15 = 0x00 := by decide

/-- TA4 -/
theorem test_mov : (after 0x8120 (regs [(2, 0x7B)])).getV 1 = 0x7B := by decide

/-- TA5: `OR` leaves VF. -/
theorem test_or : (after 0x8011 (regs [(0, 0xF0), (1, 0x0F), (15, 0x55)])).getV 0 = 0xFF ∧
    (after 0x8011 (regs [(0, 0xF0), (1, 0x0F), (15, 0x55)])).getV 15 = 0x55 := by decide

/-- TA6 -/
theorem test_and : (after 0x8012 (regs [(0, 0xF3), (1, 0x3C)])).getV 0 = 0x30 := by decide

/-- TA7: x = y. -/
theorem test_xor : (after 0x8003 (regs [(0, 0xA5)])).getV 0 = 0x00 := by decide

/-- TA8 -/
theorem test_add : (after 0x8014 (regs [(0, 0xFF), (1, 0x01)])).getV 0 = 0x00 ∧
    (after 0x8014 (regs [(0, 0xFF), (1, 0x01)])).getV 15 = 0x01 := by decide

/-- TA12, TA13: VF as a destination and as an operand. -/
theorem test_add_VF : (after 0x8F14 (regs [(15, 0x10), (1, 0x20)])).getV 15 = 0x00 ∧
    (after 0x80F4 (regs [(0, 0x01), (15, 0xFF)])).getV 0 = 0x00 ∧
    (after 0x80F4 (regs [(0, 0x01), (15, 0xFF)])).getV 15 = 0x01 := by decide

/-- TA14, TA15: equal operands do not borrow. -/
theorem test_sub : (after 0x8015 (regs [(0, 0x05), (1, 0x05)])).getV 15 = 0x01 ∧
    (after 0x8015 (regs [(0, 0x00), (1, 0x01), (15, 0x01)])).getV 0 = 0xFF ∧
    (after 0x8015 (regs [(0, 0x00), (1, 0x01), (15, 0x01)])).getV 15 = 0x00 := by decide

/-- TA18, TA19: the flag is the bit shifted out, and the field y is not used. -/
theorem test_shr : (after 0x8106 (regs [(1, 0x05)])).getV 1 = 0x02 ∧
    (after 0x8106 (regs [(1, 0x05)])).getV 15 = 0x01 ∧
    (after 0x81F6 (regs [(1, 0xFE), (15, 0x01)])).getV 1 = 0x7F ∧
    (after 0x81F6 (regs [(1, 0xFE), (15, 0x01)])).getV 15 = 0x00 := by decide

/-- TA21 -/
theorem test_subn : (after 0x8017 (regs [(0, 0x05), (1, 0x03), (15, 0x01)])).getV 0 = 0xFE ∧
    (after 0x8017 (regs [(0, 0x05), (1, 0x03), (15, 0x01)])).getV 15 = 0x00 := by decide

/-- TA23, TA25: the flag is 0 or 1, and it stays when x = 0xF. -/
theorem test_shl : (after 0x810E (regs [(1, 0x81)])).getV 1 = 0x02 ∧
    (after 0x810E (regs [(1, 0x81)])).getV 15 = 0x01 ∧
    (after 0x8F0E (regs [(15, 0x80)])).getV 15 = 0x01 := by decide

/-! ### Control transfer -/

/-- TC1 -/
theorem test_jp : (after 0x1ABC State.reset).pc = 0xABC := by decide

/-- TC4: the return address is that of the next instruction. -/
theorem test_call : (after 0x2300 (atPc 0x2A4 (stacked [0x202, 0x250] 2 State.reset))).sp = 3 ∧
    (after 0x2300 (atPc 0x2A4 (stacked [0x202, 0x250] 2 State.reset))).stack[2] = 0x2A6 ∧
    (after 0x2300 (atPc 0x2A4 (stacked [0x202, 0x250] 2 State.reset))).pc = 0x300 := by decide

/-- TC5 -/
theorem test_call_overflow : latch (after 0x2300 (stacked [] 16 State.reset)) =
    (true, 3, 0x200, 0x0300) ∧ (after 0x2300 (stacked [] 16 State.reset)).sp = 16 := by decide

/-- TC6 -/
theorem test_ret : (after 0x00EE (atPc 0x300 (stacked [0x202, 0x250, 0x2A6] 3 State.reset))).sp = 2 ∧
    (after 0x00EE (atPc 0x300 (stacked [0x202, 0x250, 0x2A6] 3 State.reset))).pc = 0x2A6 := by decide

/-- TC7 -/
theorem test_ret_underflow : latch (after 0x00EE State.reset) = (true, 4, 0x200, 0x0000) ∧
    (after 0x00EE State.reset).pc = 0x200 := by decide

/-- TC9: the sum is not masked. -/
theorem test_jpv0 : (after 0xBFFF (regs [(0, 0xFF)])).pc = 0x10FE := by decide

/-- TC11, TC12, TC20 -/
theorem test_se : (after 0x3A42 (regs [(10, 0x42)])).pc = 0x204 ∧
    (after 0x3A42 (regs [(10, 0x43)])).pc = 0x202 ∧
    (after 0x3000 (atPc 0xFFE State.reset)).pc = 0x1002 := by decide

/-- TC13, TC14 -/
theorem test_sne : (after 0x4A42 (regs [(10, 0x42)])).pc = 0x202 ∧
    (after 0x4A42 (regs [(10, 0x43)])).pc = 0x204 := by decide

/-- TC15, TC16 -/
theorem test_ser : (after 0x5120 (regs [(1, 0x09), (2, 0x09)])).pc = 0x204 ∧
    (after 0x5120 (regs [(1, 0x09), (2, 0x08)])).pc = 0x202 := by decide

/-- TC18, TC19 -/
theorem test_sner : (after 0x9120 (regs [(1, 0x09), (2, 0x08)])).pc = 0x204 ∧
    (after 0x9120 (regs [(1, 0x09), (2, 0x09)])).pc = 0x202 := by decide

/-! ### Address register and memory -/

/-- TM1 -/
theorem test_lda : (after 0xAFFF State.reset).i = 0x0FFF := by decide

/-- TM2, TM3: no flag, and the sum wraps at 65536. -/
theorem test_adda : (after 0xF11E (atI 0x0FFF (regs [(1, 0x01)]))).i = 0x1000 ∧
    (after 0xF11E (atI 0x0FFF (regs [(1, 0x01)]))).getV 15 = 0x00 ∧
    (after 0xF11E (atI 0xFFFF (regs [(1, 0x01)]))).i = 0x0000 := by decide

/-- TM5, TM6: the whole byte is used. -/
theorem test_font : (after 0xF029 (regs [(0, 0x0A)])).i = 0x0032 ∧
    (after 0xF029 (regs [(0, 0xFF)])).i = 0x04FB := by decide

/-- TM12: the highest legal base. -/
theorem test_bcd : dump (after 0xF033 (atI 0x0FFD (regs [(0, 0x7B)]))) 0xFFD 3 = [1, 2, 3] := by decide

/-- TM13: no byte is written. -/
theorem test_bcd_fault : latch (after 0xF033 (atI 0x0FFE (regs [(0, 0x7B)]))) =
    (true, 1, 0x200, 0x1000) ∧
    dump (after 0xF033 (atI 0x0FFE (regs [(0, 0x7B)]))) 0xFFE 2 = [0, 0] := by decide

/-- TM15: `V[3]` is not stored and `I` stays. -/
theorem test_stm : dump (after 0xF255 (atI 0x400 (regs [(0, 1), (1, 2), (2, 3), (3, 4)]))) 0x400 4 =
    [1, 2, 3, 0] ∧ (after 0xF255 (atI 0x400 (regs [(0, 1), (1, 2), (2, 3), (3, 4)]))).i = 0x400 := by
  decide

/-- TM17: no byte is written. -/
theorem test_stm_fault : latch (after 0xFF55 (atI 0x0FF1 (regs [(0, 0xA0)]))) =
    (true, 1, 0x200, 0x1000) ∧ dump (after 0xFF55 (atI 0x0FF1 (regs [(0, 0xA0)]))) 0xFF1 1 = [0] := by
  decide

/-- TM19: `V[3]` is not loaded. -/
theorem test_ldm :
    (after 0xF265 (bytesAt 0x300 [2, 5, 4, 7] (atI 0x300 (regs [(3, 0xEE)])))).getV 2 = 0x04 ∧
    (after 0xF265 (bytesAt 0x300 [2, 5, 4, 7] (atI 0x300 (regs [(3, 0xEE)])))).getV 3 = 0xEE ∧
    (after 0xF265 (bytesAt 0x300 [2, 5, 4, 7] (atI 0x300 (regs [(3, 0xEE)])))).i = 0x300 := by decide

/-- TM20, TM22: the font is read as data, and `I` does not wrap. -/
theorem test_ldm_edges : (after 0xF465 State.reset).getV 1 = 0x90 ∧
    (after 0xF465 State.reset).getV 4 = 0xF0 ∧
    latch (after 0xF065 (atI 0xFFFF State.reset)) = (true, 1, 0x200, 0xFFFF) := by decide

/-! ### Display -/

/-- TD1 -/
theorem test_cls : (after 0x00E0 ((regs [(15, 1)]).setFB (lit [0, 63, 2047]))).fb = Screen.dark ∧
    (after 0x00E0 ((regs [(15, 1)]).setFB (lit [0, 63, 2047]))).getV 15 = 1 := by decide

/-- TD4, TD5, TD11, TD14: the pixels wrap on both axes; one collision among two pixels; VF as an origin before it
is the flag. -/
theorem test_drw :
    (after 0xD011 (bytesAt 0x300 [0xFF] (atI 0x300 (regs [(0, 0x3C)])))).fb =
      lit [60, 61, 62, 63, 0, 1, 2, 3] ∧
    (after 0xD012 (bytesAt 0x300 [0x80, 0x80] (atI 0x300 (regs [(1, 0x1F)])))).fb = lit [1984, 0] ∧
    (after 0xD011 (bytesAt 0x300 [0xC0] (atI 0x300 (State.reset.setFB (lit [1]))))).fb = lit [0] ∧
    (after 0xD011 (bytesAt 0x300 [0xC0] (atI 0x300 (State.reset.setFB (lit [1]))))).getV 15 = 1 ∧
    (after 0xDF01 (bytesAt 0x300 [0x80] (atI 0x300 (regs [(15, 5), (0, 2)])))).fb = lit [133] := by
  decide

/-- TD8, TD12: no row reads no memory; a sprite that leaves memory draws nothing. -/
theorem test_drw_edges : (after 0xD010 (atI 0x2000 (regs [(15, 1)]))).getV 15 = 0 ∧
    latch (after 0xD012 (atI 0x0FFF (regs [(15, 7)]))) = (true, 1, 0x200, 0x1000) ∧
    (after 0xD012 (atI 0x0FFF (regs [(15, 7)]))).getV 15 = 7 := by decide

/-! ### Timers, keypad, random -/

/-- TK1 -/
theorem test_gdt : (after 0xF307 (State.reset.setDT 0x2C)).getV 3 = 0x2C := by decide

/-- TK2 -/
theorem test_sdt : (after 0xF015 (regs [(0, 0x3C)])).dt = 0x3C := by decide

/-- TK3: the tone goes on. -/
theorem test_sst : (after 0xF118 (regs [(1, 0x05)])).st = 0x05 ∧
    (after 0xF118 (regs [(1, 0x05)])).tone = true := by decide

/-- TK4, TK5 -/
theorem test_skp : (after 0xE19E (pressed [10] (regs [(1, 0x0A)]))).pc = 0x204 ∧
    (after 0xE19E (regs [(1, 0x0A)])).pc = 0x202 := by decide

/-- TK8: an index above 15 is not masked. -/
theorem test_skp_fault : latch (after 0xE19E (pressed [0] (regs [(1, 0x10)]))) =
    (true, 6, 0x200, 0x0010) := by decide

/-- TK6, TK7 -/
theorem test_sknp : (after 0xE1A1 (regs [(1, 0x0A)])).pc = 0x204 ∧
    (after 0xE1A1 (pressed [10] (regs [(1, 0x0A)]))).pc = 0x202 := by decide

/-- TK9 -/
theorem test_sknp_fault : latch (after 0xE1A1 (regs [(1, 0xFF)])) = (true, 6, 0x200, 0x00FF) := by
  decide

/-- TK10: a retry changes nothing. -/
theorem test_wkey_retry : (after 0xF20A State.reset).pc = 0x200 ∧
    (after 0xF20A State.reset).latch.halted = false := by decide

/-- TK11, TK12: the least pressed key, key 0 among them. -/
theorem test_wkey : (after 0xF20A (pressed [3, 7] State.reset)).getV 2 = 0x03 ∧
    (after 0xF20A (pressed [0] (regs [(2, 0x55)]))).getV 2 = 0x00 ∧
    (after 0xF20A (pressed [0] (regs [(2, 0x55)]))).pc = 0x202 := by decide

/-- TK14, TK15, TK16: the mask of a draw. -/
theorem test_maskDraw : maskDraw 0xA7 0x0F = 0x07 ∧ maskDraw 0xFF 0x00 = 0x00 ∧
    maskDraw 0x5C 0xFF = 0x5C := by decide

/-- TK17: whatever the draw, it is masked, and one draw is consumed. -/
theorem test_rnd : (after 0xC10F State.reset).getV 1 = maskDraw (Config.randomByte 0) 0x0F ∧
    (after 0xC10F State.reset).draws = 1 ∧ (after 0xC10F State.reset).pc = 0x202 := ⟨rfl, rfl, rfl⟩

/-! ### Events -/

/-- TE1, TE3 -/
theorem test_tick : (afterEvent .tick State.reset).dt = 0 ∧
    (afterEvent .tick ((State.reset.setDT 0xFF).setST 1)).dt = 0xFE ∧
    (afterEvent .tick ((State.reset.setDT 0xFF).setST 1)).st = 0 := by decide

/-- TE6, TE7 -/
theorem test_key : (afterEvent (.key 7 true) State.reset).key[7] = true ∧
    (afterEvent (.key 7 false) (pressed [7] State.reset)).key[7] = false := by decide

/-- TE11, TE13 -/
theorem test_load : dump (afterEvent (.load 0xFFF [0xAB]) State.reset) 0xFFF 1 = [0xAB] ∧
    afterEvent (.load 0x1000 [0x00]) State.reset = State.reset := by decide

/-- TE8: reset after a fault. -/
theorem test_reset : afterEvent .reset (after 0x00EE (regs [(3, 9)])) = State.reset := by decide

/-! ### Witnesses: for each statement with hypotheses, a state and operands that meet them together -/

/-- DecoderFollowsOpcodeMap: a word of a row with a free field, and a word of none. -/
theorem witness_opcode_rows : (∃ r ∈ opcodeRows, r.selects 0x81F6 = true ∧ r.mnemonic = "SHR") ∧
    decodeWord 0x81F6 = some (.shr 1 15) ∧ (∀ r ∈ opcodeRows, r.selects 0x8008 = false) := by decide

/-- EncodeInvertsDecode. -/
theorem witness_encode : decodeWord 0x81F6 = some (.shr 1 15) ∧ encode (.shr 1 15) = 0x81F6 := by decide

/-- StepRunsDecodedInstruction: at the last address that can be fetched, with both forms of the schedule. -/
theorem witness_step_runs : ∃ s : State, s.latch.halted = false ∧ s.pc.toNat + 1 < 4096 ∧
    decodeBytes [s.mem.read s.pc.toNat, s.mem.read (s.pc.toNat + 1)] = .ok (.ldi 0 0x11, []) ∧
    s.schedule = [] ∧ (s.setSchedule [.step, .tick]).schedule = .step :: [.tick] :=
  ⟨bytesAt 0xFFE [0x60, 0x11] (atPc 0xFFE State.reset), rfl, by decide, rfl, rfl, rfl⟩

/-- PlacedWordRunsNext: a legal word, a running core whose `PC` is the last one that allows a fetch. -/
theorem witness_placed_word : decodeTableWord 16 0x00E0 = some .cls ∧
    (atPc 0xFFE State.reset).latch.halted = false ∧ (atPc 0xFFE State.reset).pc.toNat + 1 < 4096 ∧
    step (State.reset.withFetchWord 16 0x00E0) = exec .cls (State.reset.withFetchWord 16 0x00E0) :=
  ⟨rfl, rfl, by decide, rfl⟩

/-- The invariant holds after reset. -/
theorem reset_inv : State.reset.Inv where
  memory := Memory.reset_wf
  pcBound := by decide
  returnAddresses := by intro k h hk; simp [State.reset] at hk
  latch := State.latchConsistent_of_clear _ rfl

/-- EveryStepKeepsInvariant: the first step after reset. -/
theorem witness_invariant : ∃ s t : State, s.Inv ∧ step s = .next t :=
  ⟨State.reset, _, reset_inv, rfl⟩

/-- FetchIsBigEndian: the last fetch that succeeds, and the first two that fail, at a running core. -/
theorem witness_fetch : (atPc 0xFFE State.reset).pc.toNat < 4095 ∧
    (atPc 0xFFF State.reset).pc.toNat = 4095 ∧ 4096 ≤ (atPc 0x1000 State.reset).pc.toNat ∧
    (atPc 0xFFF State.reset).latch.halted = false := by decide

/-- PcMovesByOutcome: a skip, a call, a return, a retry and a plain instruction, each without a fault. -/
theorem witness_pc_moves : (∀ i ∈ [Instr.se 0 0, .call 0x300, .jp 0x300, .jpv0 0x300, .wkey 0, .cls],
      ∃ t, exec i State.reset = .next t ∧ t.latch.halted = false) ∧
    (∃ t, exec .ret (stacked [0x202] 1 State.reset) = .next t ∧ t.latch.halted = false) ∧
    State.reset.latch.halted = false := by
  refine ⟨fun i hi => ?_, ⟨_, rfl, rfl⟩, rfl⟩
  simp only [List.mem_cons, List.not_mem_nil, or_false] at hi
  rcases hi with rfl | rfl | rfl | rfl | rfl | rfl <;> exact ⟨_, rfl, rfl⟩

/-- A `step` and then a `tick` listed. -/
def listed (s : State) : State := s.setSchedule [.step, .tick]

theorem listed_beginsStep (s : State) : BeginsStep (listed s) (s.setSchedule [.tick]) :=
  .inr ⟨[.tick], rfl, rfl⟩

/-- FetchBeyondMemoryFaults, at the boundary, with the step listed and not. -/
theorem witness_fetch_beyond : BeginsStep (atPc 0xFFF State.reset) (atPc 0xFFF State.reset) ∧
    BeginsStep (listed (atPc 0xFFF State.reset)) ((atPc 0xFFF State.reset).setSchedule [.tick]) ∧
    (listed (atPc 0xFFF State.reset)).latch.halted = false ∧
    4095 ≤ (listed (atPc 0xFFF State.reset)).pc.toNat :=
  ⟨.inl ⟨rfl, rfl⟩, listed_beginsStep _, rfl, by decide⟩

/-- UnknownWordFaults: the state after reset itself (TF7), and the same with the step listed. -/
theorem witness_unknown_word : BeginsStep State.reset State.reset ∧
    BeginsStep (listed State.reset) (State.reset.setSchedule [.tick]) ∧
    (listed State.reset).latch.halted = false ∧ (listed State.reset).fetch = .ok 0x0000 ∧
    decodeWord 0x0000 = none := ⟨.inl ⟨rfl, rfl⟩, listed_beginsStep _, rfl, rfl, rfl⟩

/-- FaultsArePrecise: the first step after reset faults, listed or not. -/
theorem witness_faulting_step : BeginsStep State.reset State.reset ∧
    BeginsStep (listed State.reset) (State.reset.setSchedule [.tick]) ∧
    (listed State.reset).latch.halted = false ∧
    (∃ t, step State.reset = .next t ∧ t.latch.halted = true) ∧
    ∃ t, step (listed State.reset) = .next t ∧ t.latch.halted = true :=
  ⟨.inl ⟨rfl, rfl⟩, listed_beginsStep _, rfl, ⟨_, rfl, rfl⟩, _, rfl, rfl⟩

/-- HaltedCoreWaitsForReset: a halted core with each form of the schedule. -/
theorem witness_halted : ∃ s : State, s.latch.halted = true ∧ (∃ t, step s = .next t) ∧ s.schedule = [] ∧
    (∃ t, step (s.setSchedule [.step]) = .next t) ∧ (∃ t, step (s.setSchedule [.tick]) = .next t) ∧
    HostEvent.tick ≠ .reset :=
  ⟨State.reset.raise .stackOverflow 0, rfl, ⟨_, rfl⟩, rfl, ⟨_, rfl⟩, ⟨_, rfl⟩, by decide⟩

/-- InvalidRegisterIndexUnreachable. -/
theorem witness_code_two : ∃ t, step State.reset = .next t ∧ State.reset.latch.code ≠ 2 :=
  ⟨_, rfl, by decide⟩

/-- InstructionsFaultExactlyAsTabled: the table of faults on both sides of each boundary. -/
theorem witness_fault_table : faultOf (.call 0x300) (stacked [] 16 State.reset) = some (3, 0x300) ∧
    faultOf (.call 0x300) (stacked [] 15 State.reset) = none ∧
    faultOf .ret State.reset = some (4, 0) ∧ faultOf .ret (stacked [] 1 State.reset) = none ∧
    faultOf (.bcd 0) (atI 0xFFE State.reset) = some (1, 4096) ∧
    faultOf (.bcd 0) (atI 0xFFD State.reset) = none ∧
    faultOf (.stm 15) (atI 0xFF1 State.reset) = some (1, 4096) ∧
    faultOf (.ldm 15) (atI 0xFF0 State.reset) = none ∧
    faultOf (.drw 0 0 0) (atI 0xFFFF State.reset) = none ∧
    faultOf (.drw 0 0 1) (atI 0xFFFF State.reset) = some (1, 0xFFFF) ∧
    faultOf (.skp 0) (regs [(0, 15)]) = none ∧ faultOf (.sknp 0) (regs [(0, 16)]) = some (6, 16) := by
  decide

/-- MemoryReadsWhatWasWritten: the first address outside memory and the last one inside. -/
theorem witness_memory : (4096 ≤ 4096 ∧ Memory.memRead [] 4096 = .error 4096) ∧
    4095 < 4096 ∧ Memory.memWrite [] 4095 0xAB = .ok [(4095, 0xAB)] := ⟨⟨by decide, rfl⟩, by decide, rfl⟩

/-- CanonicalMemoryIsUnique: one memory reached by two orders of writes. -/
theorem witness_canonical :
    Memory.wf ((Memory.write [] 0x300 1).write 0x301 2) ∧
    Memory.wf ((Memory.write [] 0x301 2).write 0x300 1) ∧
    (∀ a, ((Memory.write [] 0x300 1).write 0x301 2).read a =
      ((Memory.write [] 0x301 2).write 0x300 1).read a) := by
  refine ⟨by decide, by decide, fun a => ?_⟩
  have h : (Memory.write [] 0x300 1).write 0x301 2 = (Memory.write [] 0x301 2).write 0x300 1 := by decide
  rw [h]

/-- StoredBytesAreFetched, StoreMultiple, LoadMultiple, StoreLoadRoundTrip: the highest legal range. -/
theorem witness_block : (atI 0xFFE State.reset).i.toNat + (1 : Reg).val < 4096 ∧
    (atI 0xFF0 State.reset).i.toNat + (15 : Reg).val < 4096 ∧
    (1 : Reg).val = (0 : Reg).val + 1 ∧ (1 : Reg).val ≤ (1 : Reg).val := by decide

/-- StoreLoadRoundTrip: between the two the registers may change. -/
theorem witness_round_trip : ∃ (s t u v : State), s.i.toNat + (1 : Reg).val < 4096 ∧
    exec (.stm 1) s = .next t ∧ u.mem = t.mem ∧ u.i = t.i ∧ exec (.ldm 1) u = .next v ∧
    (∃ w, exec (.ldm 1) s = .next w ∧ ∃ z, exec (.stm 1) w = .next z) :=
  ⟨atI 0xFFE (regs [(0, 7), (1, 9)]), _, (atI 0xFFE (regs [(1, 5)])).setMem [(0xFFE, 7), (0xFFF, 9)], _,
    by decide, rfl, rfl, rfl, rfl, _, rfl, _, rfl⟩

/-- OnlyFlagInstructionsWriteVF: a flag-defining instruction, and the largest `LDM` that leaves VF. -/
theorem witness_flags : State.reset.latch.halted = false ∧
    (∃ t, exec (.add 15 15) State.reset = .next t ∧ t.latch.halted = false) ∧
    definesFlag (.add 15 15) = true ∧ (∃ t, exec (.ldm 14) State.reset = .next t) ∧
    definesFlag (.ldm 14) = false ∧ namesVF (.ldm 14) = false :=
  ⟨rfl, ⟨_, rfl, rfl⟩, rfl, ⟨_, rfl⟩, rfl, rfl⟩

/-- CallPushesReturnAddress, ReturnPops: the emptiest and the fullest stack that each takes. -/
theorem witness_stack : State.reset.sp.val < 16 ∧ (stacked [] 15 State.reset).sp.val < 16 ∧
    (stacked [] 1 State.reset).sp.val = 0 + 1 ∧ (stacked [] 16 State.reset).sp.val = 15 + 1 := by decide

/-- ReturnUndoesCall. -/
theorem witness_call_return : State.reset.sp.val < 16 ∧ ∃ t u, exec (.call 0x300) State.reset = .next t ∧
    exec .ret t = .next u := ⟨by decide, _, _, rfl, rfl⟩

/-- BcdStoresDigits: the highest legal base. -/
theorem witness_bcd : (atI 0xFFD State.reset).i.toNat + 2 < 4096 := by decide

/-- DrawFlipsTheSpriteCells: no row with `I` outside memory, and the last byte of memory as a row. -/
theorem witness_draw : (0 : Nibble).toNat = 0 ∧ (atI 0xFFF State.reset).i.toNat + (1 : Nibble).toNat ≤ 4096 ∧
    (∃ k, Hit (bytesAt 0xFFF [0x80] (atI 0xFFF State.reset)) 0 1 1 k) :=
  ⟨rfl, by decide, 0, 0, 0, by decide, by decide, by decide, by decide⟩

/-- DrawTwiceRestores: a dark frame buffer and a sprite with a set bit. -/
theorem witness_draw_twice : ∃ s : State, (0 : Reg) ≠ 15 ∧ (1 : Reg) ≠ 15 ∧
    s.i.toNat + (1 : Nibble).toNat ≤ 4096 ∧ (∀ k, Screen.lit s.fb k = false) ∧ ∃ k, Hit s 0 1 1 k := by
  refine ⟨bytesAt 0xFFF [0x80] (atI 0xFFF State.reset), by decide, by decide, by decide, fun k => ?_, 0, 0, 0,
    by decide, by decide, by decide, by decide⟩
  show Screen.lit Screen.dark k = false
  simp [Screen.lit, Screen.dark]

/-- KeySkips: the first and the last key. -/
theorem witness_keys : (State.reset.getV 1).toNat = (0 : Reg).val ∧
    ((regs [(1, 15)]).getV 1).toNat = (15 : Reg).val := by decide

/-- WaitForKey: no key, and only the last key. -/
theorem witness_wait : (∀ k : Reg, State.reset.key[k] = false) ∧
    (pressed [15] State.reset).key[(15 : Reg)] = true ∧
    (∀ j : Reg, j < 15 → (pressed [15] State.reset).key[j] = false) := by decide

/-- RandomByteIsMasked: a bit outside the mask. -/
theorem witness_mask : (0x0F : Byte).getLsbD 4 = false := by decide

/-- TickCountsDown: a timer at 0 and a timer at 1. -/
theorem witness_tick : ∃ s : State, s.schedule = .tick :: [] ∧ s.dt.toNat = 0 ∧ 0 < s.st.toNat :=
  ⟨(State.reset.setST 1).setSchedule [.tick], rfl, rfl, by decide⟩

/-- TicksReachZero: more ticks than the timer holds (TE4). -/
theorem witness_ticks : ((State.reset.setDT 3).setSchedule (List.replicate 5 .tick)).schedule =
    List.replicate 5 .tick ++ [] := rfl

/-- KeyEventSetsOneEntry, and ResetRestoresEverything at a halted core. -/
theorem witness_key_and_reset : (State.reset.setSchedule [.key 15 true]).schedule = .key 15 true :: [] ∧
    ((State.reset.raise .stackUnderflow 0).setSchedule [.reset]).schedule = .reset :: [] := ⟨rfl, rfl⟩

/-- LoadWritesAllOrNothing: the last byte of memory, nothing at the end, one byte too many (TE11 to TE13). -/
theorem witness_load : (State.reset.setSchedule [.load 0xFFF [0xAB]]).schedule = .load 0xFFF [0xAB] :: [] ∧
    0xFFF + [0xAB#8].length ≤ 4096 ∧ 0x1000 + ([] : List Byte).length ≤ 4096 ∧
    4096 < 0x1000 + [0x00#8].length := by decide

/-- WhoWritesWhat: each part of the state is changed by some instruction. -/
theorem witness_writers : (∃ t, exec (.lda 1) State.reset = .next t ∧ t.i ≠ State.reset.i) ∧
    (∃ t, exec (.call 1) State.reset = .next t ∧ t.sp ≠ State.reset.sp) ∧
    (∃ t, exec (.sdt 0) (regs [(0, 1)]) = .next t ∧ t.dt ≠ (regs [(0, 1)]).dt) ∧
    (∃ t, exec (.sst 0) (regs [(0, 1)]) = .next t ∧ t.st ≠ (regs [(0, 1)]).st) ∧
    (∃ t, exec (.drw 0 0 1) State.reset = .next t ∧ t.fb ≠ State.reset.fb) ∧
    (∃ t, exec (.bcd 0) State.reset = .next t ∧ t.mem ≠ State.reset.mem) ∧
    (∃ t, exec (.rnd 0 0) State.reset = .next t ∧ t.draws ≠ State.reset.draws) ∧
    (∃ t, exec (.ldm 0) State.reset = .next t ∧ t.getV 0 ≠ State.reset.getV 0) ∧
    (∃ t, exec .cls State.reset = .next t ∧ t.pc ≠ State.reset.pc) ∧
    (∃ t, exec .ret State.reset = .next t ∧ t.latch ≠ State.reset.latch) :=
  ⟨⟨_, rfl, by decide⟩, ⟨_, rfl, by decide⟩, ⟨_, rfl, by decide⟩, ⟨_, rfl, by decide⟩, ⟨_, rfl, by decide⟩,
    ⟨_, rfl, by decide⟩, ⟨_, rfl, by decide⟩, ⟨_, rfl, by decide⟩, ⟨_, rfl, by decide⟩, ⟨_, rfl, by decide⟩⟩

/-- HiddenStateIsUnobservable: two different states that a program cannot tell apart. -/
theorem witness_alike : ∃ s s' t t' : State, s ≠ s' ∧ Alike s s' ∧ step s = .next t ∧ step s' = .next t' :=
  ⟨State.reset, stacked [7, 7] 0 (State.reset.setST 5), _, _, by decide,
    ⟨rfl, rfl, rfl, rfl, fun _ _ h => absurd h (Nat.not_lt_zero _), rfl, rfl, rfl, rfl, rfl, rfl, rfl⟩, rfl, rfl⟩

/-- FinalStateStays: a jump to itself (TC2). -/
theorem witness_final : ∃ s : State, s.final ∧ s.schedule = [] :=
  ⟨bytesAt 0x200 [0x12, 0x00] State.reset, ⟨rfl, by decide, rfl⟩, rfl⟩

end Sys2Proof.Tests
end

/-! # Proofs of the statements about memory and the fetch (spec/20_memory.md R41, R43, R55) -/

namespace Sys2Proof.Machine

/-! ### The checked access of one byte, inside and outside memory -/

theorem Memory.memRead_of_lt (m : Memory) (a : Nat) (h : a < Config.memSize) :
    m.memRead a = .ok (m.read a) := if_neg (not_le.2 h)

theorem Memory.memRead_of_le (m : Memory) (a : Nat) (h : Config.memSize ≤ a) :
    m.memRead a = .error a := if_pos h

theorem Memory.memWrite_of_lt (m : Memory) (a : Nat) (v : Byte) (h : a < Config.memSize) :
    m.memWrite a v = .ok (m.write a v) := if_neg (not_le.2 h)

theorem Memory.memWrite_of_le (m : Memory) (a : Nat) (v : Byte) (h : Config.memSize ≤ a) :
    m.memWrite a v = .error a := if_pos h

theorem Memory.memRead_write_same (m : Memory) (a : Nat) (v : Byte) (h : a < Config.memSize) :
    (m.write a v).memRead a = .ok v := by
  rw [Memory.memRead_of_lt _ a h, Memory.read_write, if_pos rfl]

/-- The address read may lie outside memory: the fault is then the same before and after the write. -/
theorem Memory.memRead_write_of_ne (m : Memory) (a b : Nat) (v : Byte) (h : b ≠ a) :
    (m.write a v).memRead b = m.memRead b := by
  unfold Memory.memRead
  rw [Memory.read_write, if_neg h]

/-! ### The fetch, inside and outside memory -/

theorem State.fetch_of_lt (s : State) (h : s.pc.toNat + 1 < Config.memSize) :
    s.fetch = .ok (bigEndian (s.mem.read s.pc.toNat) (s.mem.read (s.pc.toNat + 1))) := by
  rcases s.fetch_cases with ⟨-, hf⟩ | ⟨hle, -⟩
  · exact hf
  · omega

theorem State.fetch_of_le (s : State) (h : Config.memSize ≤ s.pc.toNat + 1) :
    s.fetch = .error (max s.pc.toNat Config.memSize) := by
  rcases s.fetch_cases with ⟨hlt, -⟩ | ⟨-, hf⟩
  · omega
  · exact hf

/-- A running core whose fetch fails raises the fault of the address that is out of range (R43, R171). -/
theorem instructionStep_of_fetch_error (s : State) (bad : Nat) (hrun : s.latch.halted = false)
    (hf : s.fetch = .error bad) : instructionStep s = trapOutside bad s := by
  simp [instructionStep, hrun, hf]

/-- `FAULT_INFO` holds the whole address that a failed fetch reports: it fits a word, as `PC` does. -/
theorem toNat_ofNat_max_memSize (pc : Word) :
    (BitVec.ofNat 16 (max pc.toNat Config.memSize)).toNat = max pc.toNat Config.memSize := by
  have hpc := pc.isLt
  have hsize : Config.memSize < 2 ^ 16 := by decide
  rw [BitVec.toNat_ofNat, Nat.mod_eq_of_lt (max_lt hpc hsize)]

end Sys2Proof.Machine

section
open Sys2Proof Sys2Proof.Machine

/-- Settles O20, by the two cases of the address check and by what a read after a write gives at the same
address and at any other. -/
theorem memoryReadsWhatWasWritten : Obligations.MemoryReadsWhatWasWritten := by
  intro m a b
  refine ⟨fun hout => ⟨m.memRead_of_le a hout, m.memWrite_of_le a b hout⟩, fun hin => ?_⟩
  exact ⟨⟨m.read a, m.memRead_of_lt a hin⟩, m.write a b, m.memWrite_of_lt a b hin,
    m.memRead_write_same a b hin, fun a' hne => m.memRead_write_of_ne a a' b hne⟩

/-- Settles O11, by the two cases of the fetch; at `PC = 4095` and above the address reported is the greater of
`PC` and 4096. -/
theorem fetchIsBigEndian : Obligations.FetchIsBigEndian := by
  intro s
  have hout (h : 4095 ≤ s.pc.toNat) : s.fetch = .error (max s.pc.toNat 4096) :=
    s.fetch_of_le (Nat.succ_le_succ h)
  refine ⟨fun hlt => ?_, fun heq => ?_, fun hge => ?_, fun hle hrun => ?_⟩
  · exact ⟨_, s.fetch_of_lt (Nat.succ_lt_succ hlt), bigEndian_toNat _ _⟩
  · rw [hout heq.ge, heq, max_eq_right (by decide)]
  · rw [hout (le_trans (by decide) hge), max_eq_left hge]
  · exact ⟨_, toNat_ofNat_max_memSize s.pc, instructionStep_of_fetch_error s _ hrun (hout hle)⟩

end

/-! # Proofs of the statements about register load, `ADDI` and bitwise logic (spec/40_arithmetic.md R82 to R87) -/

/-! ### Decoding words of the families 6, 7 and 8 (R64, R65) -/

namespace Sys2Proof

theorem decodeWord_wordXNN_6 (x : Reg) (nn : Byte) :
    decodeWord (wordXNN 0x6 x nn) = some (.ldi x nn) := by simp [decodeWord]

theorem decodeWord_wordXNN_7 (x : Reg) (nn : Byte) :
    decodeWord (wordXNN 0x7 x nn) = some (.addi x nn) := by simp [decodeWord]

/-- In family 8 the discriminator is the last nibble. -/
theorem decodeWord_wordXYN_8 (x y : Reg) (n : Nibble) :
    decodeWord (wordXYN 0x8 x y n) = decodeFamily8 x y n.toNat := by simp [decodeWord]

end Sys2Proof

namespace Sys2Proof.Machine

/-! ### The meaning of each instruction as one register write -/

theorem exec_ldi (x : Reg) (nn : Byte) (s : State) :
    exec (.ldi x nn) s = finish .next (s.setV x nn) := rfl

/-- The carry of the sum is dropped: `ADDI` has no flag. -/
theorem exec_addi (x : Reg) (nn : Byte) (s : State) :
    exec (.addi x nn) s = finish .next (s.setV x (addWithCarry (s.getV x) nn).1) := rfl

theorem exec_mov (x y : Reg) (s : State) :
    exec (.mov x y) s = finish .next (s.setV x (s.getV y)) := rfl

theorem exec_or (x y : Reg) (s : State) :
    exec (.or x y) s = finish .next (s.setV x (s.getV x ||| s.getV y)) := rfl

theorem exec_and (x y : Reg) (s : State) :
    exec (.and x y) s = finish .next (s.setV x (s.getV x &&& s.getV y)) := rfl

theorem exec_xor (x y : Reg) (s : State) :
    exec (.xor x y) s = finish .next (s.setV x (s.getV x ^^^ s.getV y)) := rfl

theorem addWithCarry_fst (a b : Byte) :
    (addWithCarry a b).1 = BitVec.ofNat 8 ((a.toNat + b.toNat) % 256) := by
  simp [addWithCarry, ← BitVec.toNat_inj]

end Sys2Proof.Machine

namespace Sys2Proof.Spec
open Sys2Proof.Machine

/-! ### An instruction that ends with registers written -/

/-- The frame of every instruction that writes registers and `PC` only, whichever registers they are. -/
theorem keepsAllBut_registers_pc (s : State) (v : Vector Byte 16) (pc : Word) :
    KeepsAllBut [.registers, .pc] s { s with v := v, pc := pc } := by
  intro p hp
  cases p with
  | registers | pc => simp at hp
  | stack => exact ⟨rfl, rfl⟩
  | memory => exact fun _ => rfl
  | index | delayTimer | soundTimer | screen | keys | latch | draws | schedule => rfl

/-- An instruction whose meaning is one register write with outcome `Next` completes with that register. -/
theorem completesWithRegister_of_exec {i : Instr} {s : State} {x : Reg} {b : Byte}
    (h : exec i s = finish .next (s.setV x b)) : CompletesWithRegister i s x b :=
  ⟨(s.setV x b).commit .next, h, s.getV_setV_self x b, fun r hr => s.getV_setV_of_ne x r b hr, rfl,
    keepsAllBut_registers_pc s _ _⟩

end Sys2Proof.Spec

section
open Sys2Proof Sys2Proof.Machine Sys2Proof.Spec

/-- Settles O23: each of the three is one register write; for `ADDI` the byte written is the first component of
`addWithCarry`, the sum modulo 256. -/
theorem loadImmediateAddImmediateMove : Obligations.LoadImmediateAddImmediateMove := by
  intro x y nn s
  have hldi := completesWithRegister_of_exec (exec_ldi x nn s)
  have haddi := completesWithRegister_of_exec (exec_addi x nn s)
  have hmov := completesWithRegister_of_exec (exec_mov x y s)
  rw [addWithCarry_fst] at haddi
  exact ⟨decodeWord_wordXNN_6 x nn, hldi, decodeWord_wordXNN_7 x nn, haddi, decodeWord_wordXYN_8 x y 0x0, hmov⟩

/-- Settles O24: each of the three is one register write of the bitwise operation of `BitVec`, whose bits are
known. -/
theorem bitwiseLogic : Obligations.BitwiseLogic := by
  intro x y s
  refine ⟨decodeWord_wordXYN_8 x y 0x1, decodeWord_wordXYN_8 x y 0x2, decodeWord_wordXYN_8 x y 0x3, _, _, _,
    completesWithRegister_of_exec (exec_or x y s), completesWithRegister_of_exec (exec_and x y s),
    completesWithRegister_of_exec (exec_xor x y s), fun k _ => ?_⟩
  exact ⟨BitVec.getLsbD_or, BitVec.getLsbD_and, BitVec.getLsbD_xor⟩

end

/-! # Proofs of the statements about `JP` and the conditional skips (spec/41_control_flow.md R101, R105 to R108) -/

/-! ### Decoding words of the families 1, 3, 4, 5 and 9 (R64, R65) -/

namespace Sys2Proof

theorem decodeWord_wordNNN_1 (nnn : Addr) : decodeWord (wordNNN 0x1 nnn) = some (.jp nnn) := by
  simp [decodeWord]

theorem decodeWord_wordXNN_3 (x : Reg) (nn : Byte) :
    decodeWord (wordXNN 0x3 x nn) = some (.se x nn) := by simp [decodeWord]

theorem decodeWord_wordXNN_4 (x : Reg) (nn : Byte) :
    decodeWord (wordXNN 0x4 x nn) = some (.sne x nn) := by simp [decodeWord]

/-- In the families 5 and 9 the last nibble must be 0. -/
theorem decodeWord_wordXYN_5 (x y : Reg) (n : Nibble) :
    decodeWord (wordXYN 0x5 x y n) = if n = 0 then some (.ser x y) else none := by simp [decodeWord]

theorem decodeWord_wordXYN_9 (x y : Reg) (n : Nibble) :
    decodeWord (wordXYN 0x9 x y n) = if n = 0 then some (.sner x y) else none := by simp [decodeWord]

end Sys2Proof

namespace Sys2Proof.Machine

/-! ### The meaning of each instruction as an outcome alone -/

theorem exec_jp (nnn : Addr) (s : State) : exec (.jp nnn) s = finish (.jump (addressOf nnn)) s := rfl

theorem exec_se (x : Reg) (nn : Byte) (s : State) :
    exec (.se x nn) s = finish (skipIf (s.getV x == nn)) s := rfl

theorem exec_sne (x : Reg) (nn : Byte) (s : State) :
    exec (.sne x nn) s = finish (skipIf (s.getV x != nn)) s := rfl

theorem exec_ser (x y : Reg) (s : State) :
    exec (.ser x y) s = finish (skipIf (s.getV x == s.getV y)) s := rfl

theorem exec_sner (x y : Reg) (s : State) :
    exec (.sner x y) s = finish (skipIf (s.getV x != s.getV y)) s := rfl

/-- The address immediate keeps its value in 16 bits (R63). -/
@[simp] theorem addressOf_toNat (nnn : Addr) : (addressOf nnn).toNat = nnn.toNat :=
  BitVec.toNat_setWidth_of_le (by decide)

/-! ### Where a conditional skip goes (R16) -/

theorem skipIf_target (c : Bool) (pc : Word) :
    (skipIf c).target pc = if c = true then pc + 4 else pc + 2 := by
  cases c <;> rfl

theorem skipIf_beq_target (a b : Byte) (pc : Word) :
    (skipIf (a == b)).target pc = if a = b then pc + 4 else pc + 2 := by
  simp only [skipIf_target, beq_iff_eq]

theorem skipIf_bne_target (a b : Byte) (pc : Word) :
    (skipIf (a != b)).target pc = if a = b then pc + 2 else pc + 4 := by
  simp only [skipIf_target, bne_iff_ne, ite_not, ne_eq]

end Sys2Proof.Machine

namespace Sys2Proof.Spec
open Sys2Proof.Machine

/-! ### An instruction that ends with its outcome alone -/

/-- The frame of the commit, whatever the outcome (R68). -/
theorem keepsAllBut_pc_commit (s : State) (f : Flow) : KeepsAllBut [.pc] s (s.commit f) := by
  intro p hp
  cases p with
  | pc => simp at hp
  | registers | memory => exact fun _ => rfl
  | stack => exact ⟨rfl, rfl⟩
  | index | delayTimer | soundTimer | screen | keys | latch | draws | schedule => rfl

/-- An instruction that only commits an outcome completes with that outcome's target. -/
theorem completesWithPc_of_exec {i : Instr} {s : State} {f : Flow} (h : exec i s = finish f s) :
    CompletesWithPc i s (f.target s.pc) :=
  ⟨s.commit f, h, rfl, keepsAllBut_pc_commit s f⟩

/-- An instruction that skips on equality of two bytes. -/
theorem completesWithPc_of_skip_beq {i : Instr} {s : State} {a b : Byte}
    (h : exec i s = finish (skipIf (a == b)) s) :
    CompletesWithPc i s (if a = b then s.pc + 4 else s.pc + 2) :=
  skipIf_beq_target a b s.pc ▸ completesWithPc_of_exec h

/-- An instruction that skips on inequality of two bytes. -/
theorem completesWithPc_of_skip_bne {i : Instr} {s : State} {a b : Byte}
    (h : exec i s = finish (skipIf (a != b)) s) :
    CompletesWithPc i s (if a = b then s.pc + 2 else s.pc + 4) :=
  skipIf_bne_target a b s.pc ▸ completesWithPc_of_exec h

end Sys2Proof.Spec

section
open Sys2Proof Sys2Proof.Machine Sys2Proof.Spec

/-- Settles O28: `JP` only commits a jump to `nnn` as a 16-bit address. -/
theorem jumpAbsolute : Obligations.JumpAbsolute := by
  intro nnn s
  exact ⟨decodeWord_wordNNN_1 nnn, addressOf nnn, addressOf_toNat nnn, completesWithPc_of_exec (exec_jp nnn s)⟩

/-- Settles O33: each of the four only commits a skip on the equality or the inequality of two bytes. -/
theorem conditionalSkips : Obligations.ConditionalSkips := by
  intro x y nn s
  have hse := completesWithPc_of_skip_beq (exec_se x nn s)
  have hsne := completesWithPc_of_skip_bne (exec_sne x nn s)
  have hser := completesWithPc_of_skip_beq (exec_ser x y s)
  have hsner := completesWithPc_of_skip_bne (exec_sner x y s)
  exact ⟨decodeWord_wordXNN_3 x nn, hse, decodeWord_wordXNN_4 x nn, hsne,
    decodeWord_wordXYN_5 x y 0x0, hser, decodeWord_wordXYN_9 x y 0x0, hsner⟩

end

/-! # Proofs of the statements about the address register (spec/42_memory_ops.md R120, R122) -/

/-! ### Decoding words of the families A and F (R64, R65) -/

namespace Sys2Proof

theorem decodeWord_wordNNN_A (nnn : Addr) : decodeWord (wordNNN 0xA nnn) = some (.lda nnn) := by
  simp [decodeWord]

/-- In family F the discriminator is the low byte. -/
theorem decodeWord_wordXNN_F (x : Reg) (nn : Byte) :
    decodeWord (wordXNN 0xF x nn) = decodeFamilyF x nn.toNat := by simp [decodeWord]

end Sys2Proof

namespace Sys2Proof.Machine

/-! ### The meaning of each instruction as one write of the address register -/

theorem exec_lda (nnn : Addr) (s : State) :
    exec (.lda nnn) s = finish .next (s.setI (addressOf nnn)) := rfl

theorem exec_font (x : Reg) (s : State) :
    exec (.font x) s = finish .next (s.setI (glyphAddress (s.getV x))) := rfl

/-- The product of a whole byte and 5 is at most 1275, so it does not wrap (R122). -/
@[simp] theorem glyphAddress_toNat (b : Byte) : (glyphAddress b).toNat = b.toNat * 5 := by
  have hb : b.toNat < 256 := b.isLt
  have hfit : b.toNat * 5 < 2 ^ 16 := by omega
  rw [glyphAddress, BitVec.toNat_ofNat, Nat.mod_eq_of_lt hfit]

end Sys2Proof.Machine

namespace Sys2Proof.Spec
open Sys2Proof.Machine

/-! ### An instruction that ends with the address register written -/

/-- The frame of every instruction that writes `I` and `PC` only. -/
theorem keepsAllBut_index_pc (s : State) (i pc : Word) :
    KeepsAllBut [.index, .pc] s { s with i := i, pc := pc } := by
  intro p hp
  cases p with
  | index | pc => simp at hp
  | registers | memory => exact fun _ => rfl
  | stack => exact ⟨rfl, rfl⟩
  | delayTimer | soundTimer | screen | keys | latch | draws | schedule => rfl

/-- An instruction whose meaning is one write of `I` with outcome `Next` completes with that value in `I`. -/
theorem completesWithIndex_of_exec {i : Instr} {s : State} {w : Word}
    (h : exec i s = finish .next (s.setI w)) : CompletesWithIndex i s w.toNat :=
  ⟨(s.setI w).commit .next, h, rfl, rfl, keepsAllBut_index_pc s w _⟩

end Sys2Proof.Spec

section
open Sys2Proof Sys2Proof.Machine Sys2Proof.Spec

/-- Settles O34: each of the two is one write of `I`; the address immediate keeps its value in 16 bits, and five
times a byte fits them. -/
theorem loadAddressAndGlyph : Obligations.LoadAddressAndGlyph := by
  intro x nnn s
  have hlda := completesWithIndex_of_exec (exec_lda nnn s)
  have hfont := completesWithIndex_of_exec (exec_font x s)
  rw [addressOf_toNat] at hlda
  rw [glyphAddress_toNat] at hfont
  exact ⟨decodeWord_wordNNN_A nnn, hlda, decodeWord_wordXNN_F x 0x29, hfont⟩

end

/-! # Proofs of the statements about the display (spec/43_display.md R140) -/

namespace Sys2Proof.Machine

/-! ### The meaning of `CLS` as one write of the frame buffer -/

theorem exec_cls (s : State) : exec .cls s = finish .next (s.setFB Screen.dark) := rfl

end Sys2Proof.Machine

namespace Sys2Proof.Spec
open Sys2Proof.Machine

/-- The frame of every instruction that writes the frame buffer and `PC` only. -/
theorem keepsAllBut_screen_pc (s : State) (fb : Screen) (pc : Word) :
    KeepsAllBut [.screen, .pc] s { s with fb := fb, pc := pc } := by
  intro p hp
  cases p with
  | screen | pc => simp at hp
  | registers | memory => exact fun _ => rfl
  | stack => exact ⟨rfl, rfl⟩
  | index | delayTimer | soundTimer | keys | latch | draws | schedule => rfl

end Sys2Proof.Spec

section
open Sys2Proof Sys2Proof.Machine Sys2Proof.Spec

/-- Settles O40: `CLS` is one write of the dark frame buffer, in which no cell is lit; the buffer written does not
depend on the state, so a second `CLS` writes the same one. -/
theorem clearScreen : Obligations.ClearScreen := by
  intro s
  have hdecode : decodeWord 0x00E0 = some .cls := by decide
  have hframe := keepsAllBut_screen_pc s Screen.dark (s.pc + 2)
  have hsecond := exec_cls ((s.setFB Screen.dark).commit .next)
  exact ⟨hdecode, _, exec_cls s, Screen.lit_dark, rfl, hframe, _, hsecond, rfl⟩

end

/-! # Proofs of the statements about the timer registers (spec/44_timer_keypad_random.md R150 to R152) -/

namespace Sys2Proof.Machine

/-! ### The meaning of each instruction as one write of a register or a timer -/

theorem exec_gdt (x : Reg) (s : State) : exec (.gdt x) s = finish .next (s.setV x s.dt) := rfl

theorem exec_sdt (x : Reg) (s : State) : exec (.sdt x) s = finish .next (s.setDT (s.getV x)) := rfl

theorem exec_sst (x : Reg) (s : State) : exec (.sst x) s = finish .next (s.setST (s.getV x)) := rfl

end Sys2Proof.Machine

namespace Sys2Proof.Spec
open Sys2Proof.Machine

/-- The frame of every update of `DT`, `ST` and `PC`: whichever of the three is not listed as changed must be given
its old value. -/
theorem keepsAllBut_timers_pc {changed : List Part} {s : State} {dt st : Byte} {pc : Word}
    (hdt : .delayTimer ∉ changed → dt = s.dt) (hst : .soundTimer ∉ changed → st = s.st)
    (hpc : .pc ∉ changed → pc = s.pc) : KeepsAllBut changed s { s with dt := dt, st := st, pc := pc } := by
  intro p hp
  cases p with
  | delayTimer => exact hdt hp
  | soundTimer => exact hst hp
  | pc => exact hpc hp
  | registers | memory => exact fun _ => rfl
  | stack => exact ⟨rfl, rfl⟩
  | index | screen | keys | latch | draws | schedule => rfl

end Sys2Proof.Spec

section
open Sys2Proof Sys2Proof.Machine Sys2Proof.Spec

/-- Settles O43: `GDT` is one register write of `DT`; `SDT` and `SST` are one write of their timer, and the frame
lists that timer and `PC` as changed and the other timer as kept. -/
theorem timerRegisterAccess : Obligations.TimerRegisterAccess := by
  intro x s
  have hgdt := completesWithRegister_of_exec (exec_gdt x s)
  have hsdt : KeepsAllBut [.delayTimer, .pc] s ((s.setDT (s.getV x)).commit .next) :=
    keepsAllBut_timers_pc (by simp) (fun _ => rfl) (by simp)
  have hsst : KeepsAllBut [.soundTimer, .pc] s ((s.setST (s.getV x)).commit .next) :=
    keepsAllBut_timers_pc (fun _ => rfl) (by simp) (by simp)
  exact ⟨decodeWord_wordXNN_F x 0x07, hgdt,
    decodeWord_wordXNN_F x 0x15, ⟨_, exec_sdt x s, rfl, rfl, hsdt⟩,
    decodeWord_wordXNN_F x 0x18, ⟨_, exec_sst x s, rfl, rfl, hsst⟩⟩

end

/-! # Proofs of the statements about the events other than `step` (spec/60_exceptions.md R184) -/

namespace Sys2Proof.Machine

/-- Subtraction of naturals stops at 0, as a timer does. -/
theorem toNat_countDown (t : Byte) : (countDown t).toNat = t.toNat - 1 := by
  unfold countDown
  split
  case isTrue hpos => exact BitVec.toNat_sub_of_le (BitVec.le_def.2 hpos)
  case isFalse hzero => omega

/-- A listed tick is taken off the schedule and counts both timers down (R183, R184). -/
theorem step_of_schedule_tick (s : State) (rest : List HostEvent) (h : s.schedule = .tick :: rest) :
    step s = .next (s.setSchedule rest).tick := step_of_schedule_cons s .tick rest h

end Sys2Proof.Machine

namespace Sys2Proof.Spec
open Sys2Proof.Machine

/-- The frame of a listed tick: the two timers and the schedule are the only parts written. -/
theorem keepsAllBut_setSchedule_tick (s : State) (rest : List HostEvent) :
    KeepsAllBut [.delayTimer, .soundTimer, .schedule] s (s.setSchedule rest).tick := by
  intro p hp
  cases p with
  | delayTimer | soundTimer | schedule => simp at hp
  | registers | memory => exact fun _ => rfl
  | stack => exact ⟨rfl, rfl⟩
  | index | pc | screen | keys | latch | draws => rfl

end Sys2Proof.Spec

section
open Sys2Proof Sys2Proof.Machine Sys2Proof.Spec

/-- Settles O47: each timer of the state after the tick is its own old value counted down by one, which is one less
above 0 and 0 at 0. -/
theorem tickCountsDown : Obligations.TickCountsDown := by
  intro s rest h
  have hdt : (s.setSchedule rest).tick.dt.toNat = s.dt.toNat - 1 := toNat_countDown s.dt
  have hst : (s.setSchedule rest).tick.st.toNat = s.st.toNat - 1 := toNat_countDown s.st
  have hframe := keepsAllBut_setSchedule_tick s rest
  refine ⟨_, step_of_schedule_tick s rest h, fun _ => hdt, fun hzero => ?_, fun _ => hst, fun hzero => ?_,
    rfl, hframe⟩
  · rw [hdt, hzero]
  · rw [hst, hzero]

end

/-! # Proofs of the statements about the encoding (spec/30_encoding.md R61 to R66) -/

namespace Sys2Proof

/-! ### Decoding words of the families 2, B, C, D and E (R64, R65) -/

theorem decodeWord_wordNNN_2 (nnn : Addr) : decodeWord (wordNNN 0x2 nnn) = some (.call nnn) := by
  simp [decodeWord]

theorem decodeWord_wordNNN_B (nnn : Addr) : decodeWord (wordNNN 0xB nnn) = some (.jpv0 nnn) := by
  simp [decodeWord]

theorem decodeWord_wordXNN_C (x : Reg) (nn : Byte) :
    decodeWord (wordXNN 0xC x nn) = some (.rnd x nn) := by simp [decodeWord]

theorem decodeWord_wordXYN_D (x y : Reg) (n : Nibble) :
    decodeWord (wordXYN 0xD x y n) = some (.drw x y n) := by simp [decodeWord]

/-- In family E the discriminator is the low byte. -/
theorem decodeWord_wordXNN_E (x : Reg) (nn : Byte) :
    decodeWord (wordXNN 0xE x nn) = decodeFamilyE x nn.toNat := by simp [decodeWord]

/-! ### Decoding undoes encoding -/

/-- The decoder gives back every instruction from its word, family by family. -/
theorem decodeWord_encode (i : Instr) : decodeWord (encode i) = some i := by
  cases i with
  | cls | ret => decide
  | jp nnn => exact decodeWord_wordNNN_1 nnn
  | call nnn => exact decodeWord_wordNNN_2 nnn
  | se x nn => exact decodeWord_wordXNN_3 x nn
  | sne x nn => exact decodeWord_wordXNN_4 x nn
  | ser x y => exact decodeWord_wordXYN_5 x y 0
  | ldi x nn => exact decodeWord_wordXNN_6 x nn
  | addi x nn => exact decodeWord_wordXNN_7 x nn
  | mov x y | or x y | and x y | xor x y | add x y | sub x y | shr x y | subn x y | shl x y =>
    exact decodeWord_wordXYN_8 x y _
  | sner x y => exact decodeWord_wordXYN_9 x y 0
  | lda nnn => exact decodeWord_wordNNN_A nnn
  | jpv0 nnn => exact decodeWord_wordNNN_B nnn
  | rnd x nn => exact decodeWord_wordXNN_C x nn
  | drw x y n => exact decodeWord_wordXYN_D x y n
  | skp x | sknp x => exact decodeWord_wordXNN_E x _
  | gdt x | wkey x | sdt x | sst x | adda x | font x | bcd x | stm x | ldm x =>
    exact decodeWord_wordXNN_F x _

/-- Decoding from bytes is decoding the word of the first two of them. -/
theorem decodeBytes_eq_ok_iff (hi lo : Byte) (rest rest' : List Byte) (i : Instr) :
    decodeBytes (hi :: lo :: rest) = .ok (i, rest') ↔
      decodeWord (bigEndian hi lo) = some i ∧ rest = rest' := by
  rw [decodeBytes]
  cases decodeWord (bigEndian hi lo) <;> simp

/-! ### Encoding undoes decoding -/

/-- In a family with a discriminator each instruction is the encoding of the words with its discriminator. -/
theorem encode_of_decodeFamily8 {x y : Reg} {k : Nat} {i : Instr} (h : decodeFamily8 x y k = some i) :
    encode i = wordXYN 0x8 x y (BitVec.ofNat 4 k) := by
  unfold decodeFamily8 at h
  split at h <;> cases h <;> rfl

theorem encode_of_decodeFamilyE {x : Reg} {k : Nat} {i : Instr} (h : decodeFamilyE x k = some i) :
    encode i = wordXNN 0xE x (BitVec.ofNat 8 k) := by
  unfold decodeFamilyE at h
  split at h <;> cases h <;> rfl

theorem encode_of_decodeFamilyF {x : Reg} {k : Nat} {i : Instr} (h : decodeFamilyF x k = some i) :
    encode i = wordXNN 0xF x (BitVec.ofNat 8 k) := by
  unfold decodeFamilyF at h
  split at h <;> cases h <;> rfl

theorem encode_of_decodeFamily0 {w : Word} {i : Instr} (h : decodeFamily0 w = some i) :
    encode i = w := by
  unfold decodeFamily0 at h
  split at h
  case isTrue hw => cases h; exact hw.symm
  case isFalse =>
    split at h
    case isTrue hw => cases h; exact hw.symm
    case isFalse => cases h

/-- The decoder drops no bit of a legal word: in each family the word is put together from the decoded fields. -/
theorem encode_of_decodeWord {w : Word} {i : Instr} (h : decodeWord w = some i) : encode i = w := by
  obtain ⟨k, hk⟩ : ∃ k, (fieldOp w).toNat = k := ⟨_, rfl⟩
  have hop : fieldOp w = BitVec.ofNat 4 k := by simp [← hk]
  have hNNN := wordNNN_fields w
  have hXNN := wordXNN_fields w
  have hXYN := wordXYN_fields w
  rw [hop] at hNNN hXNN hXYN
  unfold decodeWord at h
  rw [hk] at h
  split at h
  case h_1 => exact encode_of_decodeFamily0 h
  case h_2 | h_3 | h_11 | h_12 => cases h; exact hNNN
  case h_4 | h_5 | h_7 | h_8 | h_13 => cases h; exact hXNN
  case h_6 | h_10 =>
    split at h
    case isTrue hn => cases h; rw [hn] at hXYN; exact hXYN
    case isFalse => cases h
  case h_9 => rw [encode_of_decodeFamily8 h, BitVec.ofNat_toNat, BitVec.setWidth_eq]; exact hXYN
  case h_14 => cases h; exact hXYN
  case h_15 => rw [encode_of_decodeFamilyE h, BitVec.ofNat_toNat, BitVec.setWidth_eq]; exact hXNN
  case h_16 => rw [encode_of_decodeFamilyF h, BitVec.ofNat_toNat, BitVec.setWidth_eq]; exact hXNN
  case h_17 => cases h

end Sys2Proof

section
open Sys2Proof

/-- Settles O4: the bytes of a word make that word again, and the decoder gives back every instruction from its
word. -/
theorem decodeInvertsEncode : Obligations.DecodeInvertsEncode := by
  intro i rest
  refine (decodeBytes_eq_ok_iff _ _ rest rest i).2 ⟨?_, rfl⟩
  rw [bigEndian_bytes, decodeWord_encode]

/-- Settles O5, by the families of the decoder. -/
theorem encodeInvertsDecode : Obligations.EncodeInvertsDecode := fun _ _ => encode_of_decodeWord

/-- Settles O1: each word is decoded as it stands. -/
theorem wordsWrittenOutDecode : Obligations.WordsWrittenOutDecode := by
  unfold Obligations.WordsWrittenOutDecode
  and_intros <;> rfl

end

/-! # Rules for frames and for the meanings of the instructions, used by the proofs that follow -/

namespace Sys2Proof.Machine

/-! ### The meaning of each remaining instruction that cannot fault -/

theorem exec_add (x y : Reg) (s : State) : exec (.add x y) s =
    finish .next (s.setResultAndFlag x (addWithCarry (s.getV x) (s.getV y))) := rfl

theorem exec_sub (x y : Reg) (s : State) : exec (.sub x y) s =
    finish .next (s.setResultAndFlag x (subWithNotBorrow (s.getV x) (s.getV y))) := rfl

theorem exec_subn (x y : Reg) (s : State) : exec (.subn x y) s =
    finish .next (s.setResultAndFlag x (subWithNotBorrow (s.getV y) (s.getV x))) := rfl

theorem exec_shr (x y : Reg) (s : State) : exec (.shr x y) s =
    finish .next (s.setResultAndFlag x (shiftRight (s.getV x))) := rfl

theorem exec_shl (x y : Reg) (s : State) : exec (.shl x y) s =
    finish .next (s.setResultAndFlag x (shiftLeft (s.getV x))) := rfl

theorem exec_jpv0 (nnn : Addr) (s : State) :
    exec (.jpv0 nnn) s = finish (.jump (s.indexedTarget nnn)) s := rfl

theorem exec_rnd (x : Reg) (nn : Byte) (s : State) :
    exec (.rnd x nn) s = finish .next (s.drawn.setV x (maskDraw s.randomByte nn)) := rfl

theorem exec_adda (x : Reg) (s : State) :
    exec (.adda x) s = finish .next (s.setI (s.i + widen (s.getV x))) := rfl

/-! ### `CALL` and `RET`, on either side of the stack's bounds -/

theorem exec_call_of_lt (nnn : Addr) (s : State) (h : s.sp.val < 16) : exec (.call nnn) s =
    finish (.jump (addressOf nnn))
      { s with stack := s.stack.set s.sp.val (s.pc + 2), sp := ⟨s.sp.val + 1, by omega⟩ } := by
  simp only [exec, execCall, State.push, dif_pos h]

theorem exec_call_of_full (nnn : Addr) (s : State) (h : s.sp.val = 16) :
    exec (.call nnn) s = trap .stackOverflow (addressOf nnn) s := by
  simp [exec, execCall, State.push, h]

theorem exec_ret_of_pos (s : State) (h : 0 < s.sp.val) : exec .ret s =
    finish (.jump s.stack[s.sp.val - 1]) { s with sp := ⟨s.sp.val - 1, by omega⟩ } := by
  simp only [exec, execRet, State.pop, dif_pos h]

theorem exec_ret_of_empty (s : State) (h : s.sp.val = 0) :
    exec .ret s = trap .stackUnderflow 0 s := by
  simp [exec, execRet, State.pop, h]

/-! ### The key skips, for an index that names a key and for one that does not -/

theorem keyIndex_of_lt (b : Byte) (h : b.toNat < 16) : keyIndex b = some ⟨b.toNat, h⟩ := dif_pos h

theorem keyIndex_of_le (b : Byte) (h : 15 < b.toNat) : keyIndex b = none := dif_neg (by omega)

theorem exec_skp_of_lt (x : Reg) (s : State) (h : (s.getV x).toNat < 16) :
    exec (.skp x) s = finish (skipIf (s.keyPressed ⟨(s.getV x).toNat, h⟩)) s := by
  simp only [exec, execSkp, keyIndex_of_lt _ h]

theorem exec_skp_of_le (x : Reg) (s : State) (h : 15 < (s.getV x).toNat) :
    exec (.skp x) s = trap .invalidKeyIndex (widen (s.getV x)) s := by
  simp only [exec, execSkp, keyIndex_of_le _ h]

theorem exec_sknp_of_lt (x : Reg) (s : State) (h : (s.getV x).toNat < 16) :
    exec (.sknp x) s = finish (skipIf (!s.keyPressed ⟨(s.getV x).toNat, h⟩)) s := by
  simp only [exec, execSknp, keyIndex_of_lt _ h]

theorem exec_sknp_of_le (x : Reg) (s : State) (h : 15 < (s.getV x).toNat) :
    exec (.sknp x) s = trap .invalidKeyIndex (widen (s.getV x)) s := by
  simp only [exec, execSknp, keyIndex_of_le _ h]

/-- A byte keeps its value as a 16-bit value (R8). -/
@[simp] theorem widen_toNat (b : Byte) : (widen b).toNat = b.toNat :=
  BitVec.toNat_setWidth_of_le (by decide)

/-! ### `WKEY`, with no key pressed and with a least key pressed -/

theorem exec_wkey_of_none (x : Reg) (s : State) (h : lowestPressed s.key = none) :
    exec (.wkey x) s = finish .retry s := by
  simp only [exec, execWkey, h]

theorem exec_wkey_of_some (x k : Reg) (s : State) (h : lowestPressed s.key = some k) :
    exec (.wkey x) s = finish .next (s.setV x (BitVec.ofNat 8 k.val)) := by
  simp only [exec, execWkey, h]

/-! ### The checked block operations, inside memory and beyond it -/

theorem Memory.readBlock_of_inside (m : Memory) (a n : Nat) (h : n = 0 ∨ a + n ≤ 4096) :
    m.readBlock a n = .ok (m.readBytes a n) := by
  rcases m.readBlock_cases a n with ⟨-, hr⟩ | ⟨hpos, hout, -⟩
  · exact hr
  · simp only [Config.memSize] at hout; omega

theorem Memory.readBlock_of_outside (m : Memory) (a n : Nat) (hpos : 0 < n) (h : 4096 < a + n) :
    m.readBlock a n = .error (max a 4096) := by
  rcases m.readBlock_cases a n with ⟨hin, -⟩ | ⟨-, -, hr⟩
  · simp only [Config.memSize] at hin; omega
  · exact hr

theorem Memory.writeBlock_of_inside (m : Memory) (a : Nat) (bs : List Byte)
    (h : a + bs.length ≤ 4096) : m.writeBlock a bs = .ok (m.writeBytes a bs) := by
  rcases m.writeBlock_cases a bs with ⟨-, hw⟩ | ⟨-, hout, -⟩
  · exact hw
  · simp only [Config.memSize] at hout; omega

theorem Memory.writeBlock_of_outside (m : Memory) (a : Nat) (bs : List Byte) (hpos : 0 < bs.length)
    (h : 4096 < a + bs.length) : m.writeBlock a bs = .error (max a 4096) := by
  rcases m.writeBlock_cases a bs with ⟨hin, -⟩ | ⟨-, -, hw⟩
  · simp only [Config.memSize] at hin; omega
  · exact hw

@[simp] theorem State.effectiveAddress_zero (s : State) : s.effectiveAddress 0 = s.i.toNat := rfl

@[simp] theorem decimalDigits_length (b : Byte) : (decimalDigits b).length = 3 := rfl

/-! ### The memory instructions, inside memory and beyond it -/

theorem exec_bcd_inside (x : Reg) (s : State) (h : s.i.toNat + 2 < 4096) : exec (.bcd x) s =
    finish .next (s.setMem (s.mem.writeBytes s.i.toNat (decimalDigits (s.getV x)))) := by
  have hw := s.mem.writeBlock_of_inside s.i.toNat (decimalDigits (s.getV x)) h
  simp only [exec, execBcd, State.effectiveAddress_zero, hw]

theorem exec_bcd_outside (x : Reg) (s : State) (h : 4096 ≤ s.i.toNat + 2) :
    exec (.bcd x) s = trapOutside (max s.i.toNat 4096) s := by
  have hw := s.mem.writeBlock_of_outside s.i.toNat (decimalDigits (s.getV x)) (by simp)
    (Nat.lt_succ_of_le h)
  simp only [exec, execBcd, State.effectiveAddress_zero, hw]

theorem exec_stm_inside (x : Reg) (s : State) (h : s.i.toNat + x.val < 4096) : exec (.stm x) s =
    finish .next (s.setMem (s.mem.writeBytes s.i.toNat (s.regsUpTo x))) := by
  have hw := s.mem.writeBlock_of_inside s.i.toNat (s.regsUpTo x) (by rw [s.regsUpTo_length]; exact h)
  simp only [exec, execStm, State.effectiveAddress_zero, hw]

theorem exec_stm_outside (x : Reg) (s : State) (h : 4096 ≤ s.i.toNat + x.val) :
    exec (.stm x) s = trapOutside (max s.i.toNat 4096) s := by
  have hw := s.mem.writeBlock_of_outside s.i.toNat (s.regsUpTo x) (by simp)
    (by rw [s.regsUpTo_length]; exact Nat.lt_succ_of_le h)
  simp only [exec, execStm, State.effectiveAddress_zero, hw]

theorem exec_ldm_inside (x : Reg) (s : State) (h : s.i.toNat + x.val < 4096) : exec (.ldm x) s =
    finish .next (s.setRegs (s.mem.readBytes s.i.toNat (x.val + 1))) := by
  have hr := s.mem.readBlock_of_inside s.i.toNat (x.val + 1) (.inr h)
  simp only [exec, execLdm, State.effectiveAddress_zero, registerCount, hr]

theorem exec_ldm_outside (x : Reg) (s : State) (h : 4096 ≤ s.i.toNat + x.val) :
    exec (.ldm x) s = trapOutside (max s.i.toNat 4096) s := by
  have hr := s.mem.readBlock_of_outside s.i.toNat (x.val + 1) (Nat.succ_pos _) (Nat.lt_succ_of_le h)
  simp only [exec, execLdm, State.effectiveAddress_zero, registerCount, hr]

/-- What `DRW` draws at a state, before it is known whether its rows lie in memory (R141). -/
def State.drawing (s : State) (x y : Reg) (n : Nibble) : Drawing :=
  drawRows (s.getV x) (s.getV y) 0 (s.mem.readBytes s.i.toNat n.toNat) (s.fb, false)

theorem exec_drw_inside (x y : Reg) (n : Nibble) (s : State)
    (h : n.toNat = 0 ∨ s.i.toNat + n.toNat ≤ 4096) : exec (.drw x y n) s =
    finish .next ((s.setFB (s.drawing x y n).1).setV VF (flagByte (s.drawing x y n).2)) := by
  have hr := s.mem.readBlock_of_inside s.i.toNat n.toNat h
  simp only [exec, execDrw, State.effectiveAddress_zero, rowCount, hr, State.drawing]

theorem exec_drw_outside (x y : Reg) (n : Nibble) (s : State) (hpos : 0 < n.toNat)
    (h : 4096 ≤ s.i.toNat + n.toNat - 1) :
    exec (.drw x y n) s = trapOutside (max s.i.toNat 4096) s := by
  have hr := s.mem.readBlock_of_outside s.i.toNat n.toNat hpos (by omega)
  simp only [exec, execDrw, State.effectiveAddress_zero, rowCount, hr]

end Sys2Proof.Machine

namespace Sys2Proof.Spec
open Sys2Proof.Machine

/-! ### Frames -/

/-- A frame, part by part. -/
theorem keepsAllBut_iff (changed : List Part) (s t : State) : KeepsAllBut changed s t ↔
    (.registers ∉ changed → ∀ r, t.getV r = s.getV r) ∧ (.index ∉ changed → t.i = s.i) ∧
    (.pc ∉ changed → t.pc = s.pc) ∧ (.stack ∉ changed → t.sp = s.sp ∧ t.stack = s.stack) ∧
    (.delayTimer ∉ changed → t.dt = s.dt) ∧ (.soundTimer ∉ changed → t.st = s.st) ∧
    (.screen ∉ changed → t.fb = s.fb) ∧ (.memory ∉ changed → ∀ a, t.mem.read a = s.mem.read a) ∧
    (.keys ∉ changed → t.key = s.key) ∧ (.latch ∉ changed → t.latch = s.latch) ∧
    (.draws ∉ changed → t.draws = s.draws) ∧ (.schedule ∉ changed → t.schedule = s.schedule) := by
  constructor
  · exact fun h => ⟨h .registers, h .index, h .pc, h .stack, h .delayTimer, h .soundTimer, h .screen,
      h .memory, h .keys, h .latch, h .draws, h .schedule⟩
  · rintro ⟨hv, hi, hpc, hstack, hdt, hst, hfb, hmem, hkey, hlatch, hdraws, hschedule⟩ p
    cases p <;> assumption

end Sys2Proof.Spec

/-! # Proofs of the statements about every instruction (spec/10_state.md R11 to R16, spec/60_exceptions.md) -/

namespace Sys2Proof.Spec
open Sys2Proof.Machine

/-! ### What an instruction can do -/

/-- What an instruction that completes can have done to the state before its commit: which parts it has written, and
that it is one of those which may write them (R11 to R14, R19, R23, R156). -/
inductive Effect (i : Instr) (s : State) : State → Prop where
  | nothing : Effect i s s
  | registers (v : Vector Byte 16)
      (hw : ∀ r : Reg, State.getV { s with v := v } r ≠ s.getV r → mayWriteRegister i s r) :
      Effect i s { s with v := v }
  | random (x : Reg) (nn b : Byte) (hi : i = .rnd x nn) : Effect i s (s.drawn.setV x b)
  | index (w : Word) (hi : (∃ n, i = .lda n) ∨ (∃ x, i = .adda x) ∨ ∃ x, i = .font x) :
      Effect i s (s.setI w)
  | call (nnn : Addr) (hi : i = .call nnn) (h : s.sp.val < 16) :
      Effect i s { s with stack := s.stack.set s.sp.val (s.pc + 2), sp := ⟨s.sp.val + 1, by omega⟩ }
  | ret (hi : i = .ret) (h : 0 < s.sp.val) : Effect i s { s with sp := ⟨s.sp.val - 1, by omega⟩ }
  | delayTimer (b : Byte) (hi : ∃ x, i = .sdt x) : Effect i s (s.setDT b)
  | soundTimer (b : Byte) (hi : ∃ x, i = .sst x) : Effect i s (s.setST b)
  | clear (hi : i = .cls) : Effect i s (s.setFB Screen.dark)
  | draw (x y : Reg) (n : Nibble) (fb : Screen) (b : Byte) (hi : i = .drw x y n) :
      Effect i s ((s.setFB fb).setV VF b)
  | memory (a : Nat) (bs : List Byte) (hin : a + bs.length ≤ 4096)
      (hi : (∃ x, i = .bcd x) ∨ ∃ x, i = .stm x) : Effect i s (s.setMem (s.mem.writeBytes a bs))

theorem Effect.setV {i : Instr} {s : State} {x : Reg} (b : Byte) (h : mayWriteRegister i s x) :
    Effect i s (s.setV x b) := by
  refine .registers _ fun r hr => ?_
  by_cases hx : r = x
  · rwa [hx]
  · exact absurd (s.getV_setV_of_ne x r b hx) hr

theorem Effect.setResultAndFlag {i : Instr} {s : State} {x : Reg} (p : Byte × Bool)
    (h : ∀ r, r = x ∨ r = 15 → mayWriteRegister i s r) : Effect i s (s.setResultAndFlag x p) := by
  refine .registers _ fun r hr => h r ?_
  by_contra hne
  rw [not_or] at hne
  refine hr ((s.getV_setResultAndFlag x r p).trans ?_)
  rw [if_neg (show r ≠ VF from hne.2), if_neg hne.1]

/-- Loading a block of registers reaches no register above the last byte. -/
theorem getV_setRegs_of_le (s : State) (bytes : List Byte) (r : Reg) (h : bytes.length ≤ r.val) :
    (s.setRegs bytes).getV r = s.getV r := by
  rw [State.getV_setRegs, List.getElem?_eq_none h, Option.getD_none]

theorem Effect.setRegs {x : Reg} {s : State} (bytes : List Byte) (h : bytes.length = x.val + 1) :
    Effect (.ldm x) s (s.setRegs bytes) := by
  refine .registers _ fun r hr => ?_
  by_contra hle
  exact hr (getV_setRegs_of_le s bytes r (by rw [h]; exact Fin.lt_def.1 (not_le.1 hle)))

/-- The instruction takes the fault that the table gives it (R170, R177). -/
def Faults (i : Instr) (s : State) : Prop :=
  ∃ c info, c ≠ .invalidRegisterIndex ∧ faultOf i s = some (c.code, info.toNat) ∧ exec i s = trap c info s

/-- The table gives the instruction no fault, and it completes. -/
def Completes (i : Instr) (s : State) : Prop :=
  faultOf i s = none ∧ ∃ f u, exec i s = finish f u ∧ Effect i s u

/-- A memory instruction beyond memory, with `FAULT_INFO` the first address outside (R171). -/
theorem faults_outside {i : Instr} {s : State} (hf : faultOf i s = some (1, max s.i.toNat 4096))
    (he : exec i s = trapOutside (max s.i.toNat 4096) s) : Faults i s :=
  ⟨.outOfBoundsMemoryAccess, BitVec.ofNat 16 (max s.i.toNat 4096), by decide,
    hf.trans (by rw [show (4096 : Nat) = Config.memSize from rfl, toNat_ofNat_max_memSize]; rfl), he⟩

theorem pressed_of_lowestPressed {keys : Vector Bool 16} {k : Reg} (h : lowestPressed keys = some k) :
    keys[k] = true := List.find?_some (p := fun k : Reg => keys[k]) h

/-- Everything an instruction can do (R67, R170, R178): the fault of the table and nothing else, or no fault. -/
theorem exec_cases (i : Instr) (s : State) : Faults i s ∨ Completes i s := by
  cases i with
  | jp nnn => exact .inr ⟨rfl, _, _, exec_jp nnn s, .nothing⟩
  | jpv0 nnn => exact .inr ⟨rfl, _, _, exec_jpv0 nnn s, .nothing⟩
  | se x nn => exact .inr ⟨rfl, _, _, exec_se x nn s, .nothing⟩
  | sne x nn => exact .inr ⟨rfl, _, _, exec_sne x nn s, .nothing⟩
  | ser x y => exact .inr ⟨rfl, _, _, exec_ser x y s, .nothing⟩
  | sner x y => exact .inr ⟨rfl, _, _, exec_sner x y s, .nothing⟩
  | ldi x nn => exact .inr ⟨rfl, _, _, exec_ldi x nn s, .setV _ rfl⟩
  | addi x nn => exact .inr ⟨rfl, _, _, exec_addi x nn s, .setV _ rfl⟩
  | mov x y => exact .inr ⟨rfl, _, _, exec_mov x y s, .setV _ rfl⟩
  | or x y => exact .inr ⟨rfl, _, _, exec_or x y s, .setV _ rfl⟩
  | and x y => exact .inr ⟨rfl, _, _, exec_and x y s, .setV _ rfl⟩
  | xor x y => exact .inr ⟨rfl, _, _, exec_xor x y s, .setV _ rfl⟩
  | gdt x => exact .inr ⟨rfl, _, _, exec_gdt x s, .setV _ rfl⟩
  | add x y => exact .inr ⟨rfl, _, _, exec_add x y s, .setResultAndFlag _ fun _ => id⟩
  | sub x y => exact .inr ⟨rfl, _, _, exec_sub x y s, .setResultAndFlag _ fun _ => id⟩
  | subn x y => exact .inr ⟨rfl, _, _, exec_subn x y s, .setResultAndFlag _ fun _ => id⟩
  | shr x y => exact .inr ⟨rfl, _, _, exec_shr x y s, .setResultAndFlag _ fun _ => id⟩
  | shl x y => exact .inr ⟨rfl, _, _, exec_shl x y s, .setResultAndFlag _ fun _ => id⟩
  | rnd x nn => exact .inr ⟨rfl, _, _, exec_rnd x nn s, .random x nn _ rfl⟩
  | lda nnn => exact .inr ⟨rfl, _, _, exec_lda nnn s, .index _ (.inl ⟨nnn, rfl⟩)⟩
  | adda x => exact .inr ⟨rfl, _, _, exec_adda x s, .index _ (.inr (.inl ⟨x, rfl⟩))⟩
  | font x => exact .inr ⟨rfl, _, _, exec_font x s, .index _ (.inr (.inr ⟨x, rfl⟩))⟩
  | sdt x => exact .inr ⟨rfl, _, _, exec_sdt x s, .delayTimer _ ⟨x, rfl⟩⟩
  | sst x => exact .inr ⟨rfl, _, _, exec_sst x s, .soundTimer _ ⟨x, rfl⟩⟩
  | cls => exact .inr ⟨rfl, _, _, exec_cls s, .clear rfl⟩
  | call nnn =>
    by_cases h : s.sp.val < 16
    · exact .inr ⟨if_neg (by omega), _, _, exec_call_of_lt nnn s h, .call nnn rfl h⟩
    · have hfull : s.sp.val = 16 := by omega
      exact .inl ⟨_, _, by decide, (if_pos hfull).trans (by rw [addressOf_toNat]; rfl),
        exec_call_of_full nnn s hfull⟩
  | ret =>
    by_cases h : s.sp.val = 0
    · exact .inl ⟨.stackUnderflow, 0, by decide, if_pos h, exec_ret_of_empty s h⟩
    · have hpos : 0 < s.sp.val := by omega
      exact .inr ⟨if_neg h, _, _, exec_ret_of_pos s hpos, .ret rfl hpos⟩
  | skp x =>
    by_cases h : 15 < (s.getV x).toNat
    · exact .inl ⟨_, _, by decide, (if_pos h).trans (by rw [widen_toNat]; rfl), exec_skp_of_le x s h⟩
    · exact .inr ⟨if_neg h, _, _, exec_skp_of_lt x s (by omega), .nothing⟩
  | sknp x =>
    by_cases h : 15 < (s.getV x).toNat
    · exact .inl ⟨_, _, by decide, (if_pos h).trans (by rw [widen_toNat]; rfl), exec_sknp_of_le x s h⟩
    · exact .inr ⟨if_neg h, _, _, exec_sknp_of_lt x s (by omega), .nothing⟩
  | wkey x =>
    cases h : lowestPressed s.key with
    | none => exact .inr ⟨rfl, _, _, exec_wkey_of_none x s h, .nothing⟩
    | some k =>
      have hk := pressed_of_lowestPressed h
      exact .inr ⟨rfl, _, _, exec_wkey_of_some x k s h, .setV _ ⟨rfl, k, hk⟩⟩
  | drw x y n =>
    by_cases h : 0 < n.toNat ∧ 4096 ≤ s.i.toNat + n.toNat - 1
    · exact .inl (faults_outside (if_pos h) (exec_drw_outside x y n s h.1 h.2))
    · exact .inr ⟨if_neg h, _, _, exec_drw_inside x y n s (by omega), .draw x y n _ _ rfl⟩
  | bcd x =>
    by_cases h : 4096 ≤ s.i.toNat + 2
    · exact .inl (faults_outside (if_pos h) (exec_bcd_outside x s h))
    · have hin : s.i.toNat + 2 < 4096 := by omega
      exact .inr ⟨if_neg h, _, _, exec_bcd_inside x s hin, .memory _ _ hin (.inl ⟨x, rfl⟩)⟩
  | stm x =>
    by_cases h : 4096 ≤ s.i.toNat + x.val
    · exact .inl (faults_outside (if_pos h) (exec_stm_outside x s h))
    · have hin : s.i.toNat + x.val < 4096 := by omega
      exact .inr ⟨if_neg h, _, _, exec_stm_inside x s hin,
        .memory _ _ (by rw [s.regsUpTo_length]; exact hin) (.inr ⟨x, rfl⟩)⟩
  | ldm x =>
    by_cases h : 4096 ≤ s.i.toNat + x.val
    · exact .inl (faults_outside (if_pos h) (exec_ldm_outside x s h))
    · exact .inr ⟨if_neg h, _, _, exec_ldm_inside x s (by omega), .setRegs _ (by simp)⟩

/-! ### What no instruction that completes writes -/

theorem Effect.pc {i : Instr} {s u : State} (h : Effect i s u) : u.pc = s.pc := by cases h <;> rfl
theorem Effect.latch {i : Instr} {s u : State} (h : Effect i s u) : u.latch = s.latch := by cases h <;> rfl
theorem Effect.key {i : Instr} {s u : State} (h : Effect i s u) : u.key = s.key := by cases h <;> rfl
theorem Effect.schedule {i : Instr} {s u : State} (h : Effect i s u) : u.schedule = s.schedule := by
  cases h <;> rfl

/-! ### Which instruction has written a part that has changed -/

theorem Effect.mayWriteRegister {i : Instr} {s u : State} (h : Effect i s u) {r : Reg}
    (hr : u.getV r ≠ s.getV r) : mayWriteRegister i s r := by
  cases h with
  | registers v hw => exact hw r hr
  | random x nn b hi =>
    subst hi
    by_contra hne
    exact hr (s.drawn.getV_setV_of_ne x r b hne)
  | draw x y n fb b hi =>
    subst hi
    by_contra hne
    exact hr ((s.setFB fb).getV_setV_of_ne VF r b hne)
  | nothing | index | call | ret | delayTimer | soundTimer | clear | memory => exact absurd rfl hr

theorem Effect.index_writer {i : Instr} {s u : State} (h : Effect i s u) (hne : u.i ≠ s.i) :
    (∃ n, i = .lda n) ∨ (∃ x, i = .adda x) ∨ ∃ x, i = .font x := by
  cases h with
  | index w hi => exact hi
  | _ => exact absurd rfl hne

theorem Effect.stack_writer {i : Instr} {s u : State} (h : Effect i s u)
    (hne : u.sp ≠ s.sp ∨ u.stack ≠ s.stack) : (∃ n, i = .call n) ∨ i = .ret := by
  cases h with
  | call nnn hi => exact .inl ⟨nnn, hi⟩
  | ret hi => exact .inr hi
  | _ => exact (hne.elim (absurd rfl) (absurd rfl))

theorem Effect.delayTimer_writer {i : Instr} {s u : State} (h : Effect i s u) (hne : u.dt ≠ s.dt) :
    ∃ x, i = .sdt x := by
  cases h with
  | delayTimer b hi => exact hi
  | _ => exact absurd rfl hne

theorem Effect.soundTimer_writer {i : Instr} {s u : State} (h : Effect i s u) (hne : u.st ≠ s.st) :
    ∃ x, i = .sst x := by
  cases h with
  | soundTimer b hi => exact hi
  | _ => exact absurd rfl hne

theorem Effect.screen_writer {i : Instr} {s u : State} (h : Effect i s u) (hne : u.fb ≠ s.fb) :
    i = .cls ∨ ∃ x y n, i = .drw x y n := by
  cases h with
  | clear hi => exact .inl hi
  | draw x y n fb b hi => exact .inr ⟨x, y, n, hi⟩
  | _ => exact absurd rfl hne

theorem Effect.memory_writer {i : Instr} {s u : State} (h : Effect i s u) (hne : u.mem ≠ s.mem) :
    (∃ x, i = .bcd x) ∨ ∃ x, i = .stm x := by
  cases h with
  | memory a bs hin hi => exact hi
  | _ => exact absurd rfl hne

theorem Effect.draws_writer {i : Instr} {s u : State} (h : Effect i s u) (hne : u.draws ≠ s.draws) :
    ∃ x nn, i = .rnd x nn := by
  cases h with
  | random x nn b hi => exact ⟨x, nn, hi⟩
  | _ => exact absurd rfl hne

/-! ### A fault taken -/

theorem faultTaken_raise (s : State) (c : FaultCause) (info : Word) :
    FaultTaken c.code info.toNat s (s.raise c info) :=
  ⟨rfl, rfl, rfl, rfl, by simp [keepsAllBut_iff]⟩

/-! ### Where a fault-free instruction goes -/

theorem pc_of_finish {f : Flow} {u t : State} (h : finish f u = .next t) : t.pc = f.target u.pc := by
  rw [(finish_eq_next f u t).1 h, State.commit_pc]

theorem latch_of_finish {f : Flow} {u t : State} (h : finish f u = .next t) : t.latch = u.latch := by
  rw [(finish_eq_next f u t).1 h, State.commit_latch]

theorem halted_of_trap {c : FaultCause} {info : Word} {s t : State} (h : trap c info s = .next t) :
    t.latch.halted = true := by
  rw [(trap_eq_next c info s t).1 h, State.raise_latch]

theorem faultOf_eq_none_of_running {i : Instr} {s t : State} (h : exec i s = .next t)
    (hrun : t.latch.halted = false) : faultOf i s = none := by
  rcases exec_cases i s with ⟨c, info, -, -, he⟩ | ⟨hf, -⟩
  · simp [halted_of_trap (he.symm.trans h)] at hrun
  · exact hf

theorem pc_of_skip {c : Bool} {s t : State} (h : finish (skipIf c) s = .next t) :
    t.pc = s.pc + 2 ∨ t.pc = s.pc + 4 := by
  rw [pc_of_finish h, skipIf_target]
  cases c with
  | false => exact .inl rfl
  | true => exact .inr rfl

/-- The sum of an address and a byte fits 16 bits (R104). -/
theorem indexedTarget_toNat (s : State) (nnn : Addr) :
    (s.indexedTarget nnn).toNat = nnn.toNat + (s.getV 0).toNat := by
  have hn := nnn.isLt
  have hv := (s.getV 0).isLt
  rw [State.indexedTarget, BitVec.toNat_add, addressOf_toNat, widen_toNat]
  omega

theorem lowestPressed_eq_none_iff (keys : Vector Bool 16) :
    lowestPressed keys = none ↔ ∀ k : Reg, keys[k] = false := by
  simp [lowestPressed, List.find?_eq_none]

end Sys2Proof.Spec

section
open Sys2Proof Sys2Proof.Machine Sys2Proof.Spec

/-- Settles O14: the table's fault is raised, or the instruction completes and does not write the latch. -/
theorem instructionsFaultExactlyAsTabled : Obligations.InstructionsFaultExactlyAsTabled := by
  intro i s
  rcases exec_cases i s with ⟨c, info, -, hf, he⟩ | ⟨hf, f, u, he, hu⟩
  · refine ⟨s.raise c info, he, ?_⟩
    rw [hf]
    exact faultTaken_raise s c info
  · refine ⟨u.commit f, he, ?_⟩
    rw [hf]
    exact hu.latch

/-- Settles O12: an instruction that ends with the core running has completed, and each class commits its own
outcome. -/
theorem pcMovesByOutcome : Obligations.PcMovesByOutcome := by
  intro i s t _ h hrun
  have hf : faultOf i s = none := faultOf_eq_none_of_running h hrun
  cases i with
  | se | sne | ser | sner => exact pc_of_skip h
  | skp x =>
    simp only [faultOf, ite_eq_right_iff, reduceCtorEq, imp_false, not_lt] at hf
    rw [exec_skp_of_lt x s (Nat.lt_succ_of_le hf)] at h
    exact pc_of_skip h
  | sknp x =>
    simp only [faultOf, ite_eq_right_iff, reduceCtorEq, imp_false, not_lt] at hf
    rw [exec_sknp_of_lt x s (Nat.lt_succ_of_le hf)] at h
    exact pc_of_skip h
  | jp nnn => exact (congrArg BitVec.toNat (pc_of_finish h)).trans (addressOf_toNat nnn)
  | jpv0 nnn => exact (congrArg BitVec.toNat (pc_of_finish h)).trans (indexedTarget_toNat s nnn)
  | call nnn =>
    simp only [faultOf, ite_eq_right_iff, reduceCtorEq, imp_false] at hf
    rw [exec_call_of_lt nnn s (by omega)] at h
    exact (congrArg BitVec.toNat (pc_of_finish h)).trans (addressOf_toNat nnn)
  | ret =>
    simp only [faultOf, ite_eq_right_iff, reduceCtorEq, imp_false] at hf
    rw [exec_ret_of_pos s (by omega)] at h
    exact ⟨s.sp.val - 1, by omega, by omega, pc_of_finish h⟩
  | wkey x =>
    cases hk : lowestPressed s.key with
    | none =>
      rw [exec_wkey_of_none x s hk] at h
      exact .inr ⟨pc_of_finish h, (lowestPressed_eq_none_iff s.key).1 hk⟩
    | some k =>
      rw [exec_wkey_of_some x k s hk] at h
      exact .inl (pc_of_finish h)
  | drw x y n =>
    simp only [faultOf, ite_eq_right_iff, reduceCtorEq, imp_false] at hf
    rw [exec_drw_inside x y n s (by omega)] at h
    exact pc_of_finish h
  | bcd x =>
    simp only [faultOf, ite_eq_right_iff, reduceCtorEq, imp_false, not_le] at hf
    rw [exec_bcd_inside x s hf] at h
    exact pc_of_finish h
  | stm x =>
    simp only [faultOf, ite_eq_right_iff, reduceCtorEq, imp_false, not_le] at hf
    rw [exec_stm_inside x s hf] at h
    exact pc_of_finish h
  | ldm x =>
    simp only [faultOf, ite_eq_right_iff, reduceCtorEq, imp_false, not_le] at hf
    rw [exec_ldm_inside x s hf] at h
    exact pc_of_finish h
  | cls | ldi | addi | mov | or | and | xor | add | sub | shr | subn | shl | lda | rnd | gdt | sdt | sst
  | adda | font =>
    have hpc := pc_of_finish h
    exact hpc

/-- Settles O52: a fault leaves every part but the latch; of a completed instruction each part has its own
writers. -/
theorem whoWritesWhat : Obligations.WhoWritesWhat := by
  intro i s t h
  rcases exec_cases i s with ⟨c, info, -, hf, he⟩ | ⟨hf, f, u, he, hu⟩
  · obtain rfl := (trap_eq_next c info s t).1 (he.symm.trans h)
    simp [hf]
  · obtain rfl := (finish_eq_next f u t).1 (he.symm.trans h)
    exact ⟨fun _ => hu.mayWriteRegister, fun _ => hf, fun hne => absurd hu.latch hne, hu.index_writer,
      hu.stack_writer, hu.delayTimer_writer, hu.soundTimer_writer, hu.screen_writer, hu.memory_writer,
      hu.draws_writer, hu.key, hu.schedule⟩

end

/-! # Proofs of the statements about every step (spec/30_encoding.md R67, spec/60_exceptions.md R177 to R183) -/

namespace Sys2Proof.Spec
open Sys2Proof.Machine

/-! ### One step of a running core -/

theorem instructionStep_of_decoded {s : State} {w : Word} {i : Instr} (hrun : s.latch.halted = false)
    (hf : s.fetch = .ok w) (hd : decodeWord w = some i) : instructionStep s = exec i s := by
  simp [instructionStep, hrun, hf, hd]

theorem instructionStep_of_unknown {s : State} {w : Word} (hrun : s.latch.halted = false)
    (hf : s.fetch = .ok w) (hd : decodeWord w = none) : instructionStep s = trap .unknownOpcode w s := by
  simp [instructionStep, hrun, hf, hd]

theorem instructionStep_of_halted {s : State} (hh : s.latch.halted = true) : instructionStep s = .next s := by
  simp [instructionStep, hh]

/-- Listed or not, a `step` of the core runs on the state at which it begins. -/
theorem step_of_beginsStep {s u : State} (h : BeginsStep s u) : step s = instructionStep u := by
  rcases h with ⟨hnil, rfl⟩ | ⟨rest, hcons, rfl⟩
  · exact step_of_schedule_nil u hnil
  · exact step_of_schedule_step s rest hcons

/-- The state at which a step begins differs from the one before it in the schedule at most. -/
theorem eq_setSchedule_of_beginsStep {s u : State} (h : BeginsStep s u) : ∃ es, u = s.setSchedule es := by
  rcases h with ⟨-, rfl⟩ | ⟨rest, -, rfl⟩
  · exact ⟨u.schedule, rfl⟩
  · exact ⟨rest, rfl⟩

/-- A fault raised by the fetch, by the decoder or by an instruction (R170). -/
def StepFaults (s : State) : Prop :=
  ∃ c info, c ≠ .invalidRegisterIndex ∧ instructionStep s = trap c info s

/-- An instruction fetched, decoded and completed. -/
def StepCompletes (s : State) : Prop :=
  s.pc.toNat + 1 < 4096 ∧ ∃ i, instructionStep s = exec i s ∧ Completes i s

/-- Everything a `step` of a running core can do (R67, R179). -/
theorem instructionStep_running_cases {s : State} (hrun : s.latch.halted = false) :
    StepFaults s ∨ StepCompletes s := by
  rcases s.fetch_cases with ⟨hlt, hf⟩ | ⟨-, hf⟩
  · cases hd : decodeWord (bigEndian (s.mem.read s.pc.toNat) (s.mem.read (s.pc.toNat + 1))) with
    | none => exact .inl ⟨_, _, by decide, instructionStep_of_unknown hrun hf hd⟩
    | some i =>
      have he := instructionStep_of_decoded hrun hf hd
      rcases exec_cases i s with ⟨c, info, hc, -, ht⟩ | hdone
      · exact .inl ⟨c, info, hc, he.trans ht⟩
      · exact .inr ⟨hlt, i, he, hdone⟩
  · exact .inl ⟨_, _, by decide, instructionStep_of_fetch_error s _ hrun hf⟩

theorem exec_answers_next (i : Instr) (s : State) : ∃ t, exec i s = .next t := by
  rcases exec_cases i s with ⟨c, info, -, -, he⟩ | ⟨-, f, u, he, -⟩
  · exact ⟨_, he⟩
  · exact ⟨_, he⟩

theorem instructionStep_answers_next (s : State) : ∃ t, instructionStep s = .next t := by
  rcases instructionStep_cases s with ⟨-, he⟩ | ⟨-, bad, -, he⟩ | ⟨-, w, -, -, he⟩ | ⟨-, w, i, -, -, he⟩
  · exact ⟨_, he⟩
  · exact ⟨_, he⟩
  · exact ⟨_, he⟩
  · rw [he]
    exact exec_answers_next i s

theorem deliver_answers_next (e : HostEvent) (s : State) : ∃ t, deliver e s = .next t := by
  cases e with
  | step => exact instructionStep_answers_next s
  | tick | key | load | reset => exact ⟨_, rfl⟩

theorem step_answers_next (s : State) : ∃ t, step s = .next t := by
  cases hs : s.schedule with
  | nil => rw [step_of_schedule_nil s hs]; exact instructionStep_answers_next s
  | cons e rest => rw [step_of_schedule_cons s e rest hs]; exact deliver_answers_next e _

/-- A relation between the states before and after any step holds if it holds for a `step` of the core and for each
other event, taken at the state with whatever is left of the schedule (R183). -/
theorem rel_of_step {P : State → State → Prop} {s t : State} (h : step s = .next t)
    (hcore : ∀ es u, instructionStep (s.setSchedule es) = .next u → P s u)
    (htick : ∀ es, P s (s.setSchedule es).tick) (hkey : ∀ es k b, P s ((s.setSchedule es).setKey k b))
    (hload : ∀ es a bs, P s ((s.setSchedule es).load a bs).2)
    (hreset : ∀ es, P s (s.setSchedule es).resetEvent) : P s t := by
  cases hs : s.schedule with
  | nil =>
    rw [step_of_schedule_nil s hs] at h
    exact hcore s.schedule t h
  | cons e rest =>
    rw [step_of_schedule_cons s e rest hs] at h
    cases e with
    | step => exact hcore rest t h
    | tick => cases h; exact htick rest
    | key k b => cases h; exact hkey rest k b
    | load a bs => cases h; exact hload rest a bs
    | reset => cases h; exact hreset rest

/-! ### The code that no step latches (R172) -/

theorem code_ne_two {c : FaultCause} (hc : c ≠ .invalidRegisterIndex) : c.code ≠ 2 := by
  cases c with
  | invalidRegisterIndex => exact absurd rfl hc
  | _ => decide

theorem instructionStep_code_ne_two {s t : State} (h : instructionStep s = .next t)
    (hs : s.latch.code ≠ 2) : t.latch.code ≠ 2 := by
  cases hh : s.latch.halted with
  | true =>
    rw [instructionStep_of_halted hh] at h
    cases h
    exact hs
  | false =>
    rcases instructionStep_running_cases hh with ⟨c, info, hc, he⟩ | ⟨-, i, he, -, f, u, hdone, hu⟩
    · obtain rfl := (trap_eq_next c info s t).1 (he.symm.trans h)
      exact code_ne_two hc
    · rw [latch_of_finish (hdone.symm.trans (he.symm.trans h)), hu.latch]
      exact hs

/-! ### The invariant: each of its parts along a completed instruction -/

theorem Effect.memory_wf {i : Instr} {s u : State} (h : Effect i s u) (hm : s.mem.wf) : u.mem.wf := by
  cases h with
  | memory a bs hin hi => exact s.mem.writeBytes_wf a bs hin hm
  | _ => exact hm

/-- A return address is `PC + 2` of an instruction that was fetched (R102, R103). -/
theorem Effect.returnAddresses {i : Instr} {s u : State} (h : Effect i s u) (hpc : s.pc.toNat + 1 < 4096)
    (hs : ∀ k (_ : k < 16), k < s.sp.val → 0x002 ≤ s.stack[k].toNat ∧ s.stack[k].toNat ≤ 0x1000) :
    ∀ k (_ : k < 16), k < u.sp.val → 0x002 ≤ u.stack[k].toNat ∧ u.stack[k].toNat ≤ 0x1000 := by
  cases h with
  | call nnn hi hsp =>
    intro k hk hlt
    show 0x002 ≤ (s.stack.set s.sp.val (s.pc + 2))[k].toNat ∧ (s.stack.set s.sp.val (s.pc + 2))[k].toNat ≤ 0x1000
    rw [Vector.getElem_set]
    split
    case isTrue =>
      rw [BitVec.toNat_add, show (2 : Word).toNat = 2 from rfl]
      omega
    case isFalse hne => exact hs k hk (lt_of_le_of_ne (Nat.le_of_lt_succ hlt) (Ne.symm hne))
  | ret hi hsp => exact fun k hk hlt => hs k hk (lt_of_lt_of_le hlt (Nat.sub_le _ _))
  | _ => exact hs

/-- The bound of R16 along an instruction that ends with the core running. -/
theorem pcBound_of_exec {i : Instr} {s t : State} (hrun : s.latch.halted = false) (hpc : s.pc.toNat + 1 < 4096)
    (hs : ∀ k (_ : k < 16), k < s.sp.val → 0x002 ≤ s.stack[k].toNat ∧ s.stack[k].toNat ≤ 0x1000)
    (h : exec i s = .next t) (hrun' : t.latch.halted = false) : t.pc.toNat ≤ 0x10FE := by
  have htwo : (s.pc + 2).toNat ≤ 0x1000 := by
    rw [BitVec.toNat_add, show (2 : Word).toNat = 2 from rfl]; omega
  have hfour : (s.pc + 4).toNat ≤ 0x1002 := by
    rw [BitVec.toNat_add, show (4 : Word).toNat = 4 from rfl]; omega
  have hmove := pcMovesByOutcome i s t hrun h hrun'
  cases i with
  | se | sne | ser | sner | skp | sknp =>
    rcases hmove with hmove | hmove <;> rw [hmove] <;> omega
  | jp nnn | call nnn =>
    have hn : nnn.toNat < 4096 := nnn.isLt
    have hmove : t.pc.toNat = nnn.toNat := hmove
    omega
  | jpv0 nnn =>
    have hn : nnn.toNat < 4096 := nnn.isLt
    have hv : (s.getV 0).toNat < 256 := (s.getV 0).isLt
    have hmove : t.pc.toNat = nnn.toNat + (s.getV 0).toNat := hmove
    omega
  | ret =>
    obtain ⟨k, hk, hsp, hmove⟩ := hmove
    rw [hmove]
    exact le_trans (hs k hk (by omega)).2 (by decide)
  | wkey =>
    rcases hmove with hmove | ⟨hmove, -⟩ <;> rw [hmove] <;> omega
  | _ => rw [show t.pc = s.pc + 2 from hmove]; omega

theorem latchConsistent_congr {s t : State} (hl : t.latch = s.latch) (hpc : t.pc = s.pc)
    (h : s.latchConsistent) : t.latchConsistent := by
  unfold State.latchConsistent
  rw [hl, hpc]
  exact h

theorem inv_raise {s : State} {c : FaultCause} (info : Word) (hc : c ≠ .invalidRegisterIndex) (h : s.Inv) :
    (s.raise c info).Inv :=
  ⟨h.memory, h.pcBound, h.returnAddresses, s.raise_latchConsistent c info hc⟩

theorem inv_of_exec {i : Instr} {s t : State} (hrun : s.latch.halted = false) (hpc : s.pc.toNat + 1 < 4096)
    (hinv : s.Inv) (hdone : Completes i s) (h : exec i s = .next t) : t.Inv := by
  obtain ⟨-, f, u, he, hu⟩ := hdone
  have hclear : t.latch = FaultLatch.clear := by
    rw [latch_of_finish (he.symm.trans h), hu.latch]
    exact hinv.latch.1 hrun
  have hbound := pcBound_of_exec hrun hpc hinv.returnAddresses h (by rw [hclear]; rfl)
  obtain rfl := (finish_eq_next f u t).1 (he.symm.trans h)
  exact ⟨hu.memory_wf hinv.memory, hbound, hu.returnAddresses hpc hinv.returnAddresses,
    State.latchConsistent_of_clear _ hclear⟩

theorem inv_of_instructionStep {s t : State} (hinv : s.Inv) (h : instructionStep s = .next t) : t.Inv := by
  cases hh : s.latch.halted with
  | true =>
    rw [instructionStep_of_halted hh] at h
    cases h
    exact hinv
  | false =>
    rcases instructionStep_running_cases hh with ⟨c, info, hc, he⟩ | ⟨hpc, i, he, hdone⟩
    · obtain rfl := (trap_eq_next c info s t).1 (he.symm.trans h)
      exact inv_raise info hc hinv
    · exact inv_of_exec hh hpc hinv hdone (he.symm.trans h)

/-- The invariant speaks of memory, `PC`, the call stack and the latch only. -/
theorem inv_congr {s t : State} (hinv : s.Inv) (hm : t.mem.wf) (hpc : t.pc = s.pc) (hsp : t.sp = s.sp)
    (hstack : t.stack = s.stack) (hlatch : t.latch = s.latch) : t.Inv := by
  obtain ⟨-, hbound, hreturn, hl⟩ := hinv
  exact ⟨hm, hpc ▸ hbound, by rw [hsp, hstack]; exact hreturn, latchConsistent_congr hlatch hpc hl⟩

theorem inv_resetEvent (s : State) : s.resetEvent.Inv where
  memory := Memory.reset_wf
  pcBound := by rw [State.resetEvent_pc]; decide
  returnAddresses := fun k _ hlt => absurd hlt (Nat.not_lt_zero k)
  latch := State.latchConsistent_of_clear _ rfl

/-! ### The state with a word placed where the next step fetches it (log 7) -/

theorem fetchPoint_lt (s : State) : s.fetchPoint.toNat + 1 < 4096 := by
  unfold State.fetchPoint
  split
  case isTrue h => exact h
  case isFalse => decide

theorem fetchPoint_of_lt {s : State} (h : s.pc.toNat + 1 < 4096) : s.fetchPoint = s.pc := if_pos h

theorem placeWord_running (s : State) (w : Word) : (s.placeWord w).latch.halted = false := by
  show (if s.latch.halted then FaultLatch.clear else s.latch).halted = false
  cases h : s.latch.halted with
  | true => rfl
  | false => simpa using h

theorem placeWord_latch_of_running {s : State} (w : Word) (h : s.latch.halted = false) :
    (s.placeWord w).latch = s.latch := if_neg (by simp [h])

/-- The first byte of a placed word is at the fetch point and the second after it. -/
theorem fetch_placeWord (s : State) (w : Word) : (s.placeWord w).fetch = .ok w := by
  have hhi := s.mem.read_writeBytes_of_inside s.fetchPoint.toNat 0 (wordBytes w) (by simp [wordBytes])
  have hlo := s.mem.read_writeBytes_of_inside s.fetchPoint.toNat 1 (wordBytes w) (by simp [wordBytes])
  rw [State.fetch_of_lt (s.placeWord w) (fetchPoint_lt s)]
  show Except.ok (bigEndian ((s.mem.writeBytes s.fetchPoint.toNat (wordBytes w)).read (s.fetchPoint.toNat + 0))
    ((s.mem.writeBytes s.fetchPoint.toNat (wordBytes w)).read (s.fetchPoint.toNat + 1))) = _
  rw [hhi, hlo]
  exact congrArg Except.ok (bigEndian_bytes w)

theorem keepsAllBut_placeWord {s : State} (w : Word) (hrun : s.latch.halted = false)
    (hpc : s.pc.toNat + 1 < 4096) : KeepsAllBut [.memory, .schedule] s (s.placeWord w) := by
  intro p hp
  cases p with
  | memory | schedule => simp at hp
  | pc => exact fetchPoint_of_lt hpc
  | latch => exact placeWord_latch_of_running w hrun
  | registers => exact fun _ => rfl
  | stack => exact ⟨rfl, rfl⟩
  | index | delayTimer | soundTimer | screen | keys | draws => rfl

theorem decodeTableWord_eq (nbits w : Nat) : decodeTableWord nbits w = decodeWord (tableWord nbits w) := by
  simp only [decodeTableWord, wordBytes, decodeBytes, bigEndian_bytes]
  cases decodeWord (tableWord nbits w) <;> rfl

end Sys2Proof.Spec

section
open Sys2Proof Sys2Proof.Machine Sys2Proof.Spec

/-- Settles O10: a fault writes the latch only, a completed instruction keeps each part of the invariant, and of the
other events only `load` and `reset` touch a part of it. -/
theorem everyStepKeepsInvariant : Obligations.EveryStepKeepsInvariant := by
  intro s t hinv h
  refine rel_of_step (P := fun _ t => t.Inv) h ?core ?tick ?key ?load ?reset
  case core =>
    exact fun es u => inv_of_instructionStep (inv_congr hinv hinv.memory rfl rfl rfl rfl)
  case tick => exact fun es => inv_congr hinv hinv.memory rfl rfl rfl rfl
  case key => exact fun es k b => inv_congr hinv hinv.memory rfl rfl rfl rfl
  case load =>
    exact fun es a bs => inv_congr hinv (State.load_wf _ a bs hinv.memory) (State.load_pc _ a bs)
      (State.load_sp _ a bs) (State.load_stack _ a bs) (State.load_latch _ a bs)
  case reset => exact fun es => inv_resetEvent _

/-- Settles O9: the reset state is what a `reset` event at it gives. -/
theorem resetMeetsInvariant : Obligations.ResetMeetsInvariant := inv_resetEvent State.reset

/-- Settles O6: two bytes that decode are the word that the fetch finds, whatever the schedule. -/
theorem stepRunsDecodedInstruction : Obligations.StepRunsDecodedInstruction := by
  intro s i hrun hpc hd
  have hdecode := ((decodeBytes_eq_ok_iff _ _ [] [] i).1 hd).1
  refine ⟨fun hs => ?_, fun rest hs => ?_⟩
  · rw [step_of_schedule_nil s hs]
    exact instructionStep_of_decoded hrun (s.fetch_of_lt hpc) hdecode
  · rw [step_of_schedule_step s rest hs]
    exact instructionStep_of_decoded hrun (s.fetch_of_lt hpc) hdecode

/-- Settles O7: the placed word is what the fetch finds, at a state that runs with no event listed. -/
theorem placedWordRunsNext : Obligations.PlacedWordRunsNext := by
  refine ⟨fun s w i hd => ?_, fun s w hrun hpc => ?_⟩
  · rw [decodeTableWord_eq] at hd
    rw [step_of_schedule_nil _ rfl]
    exact instructionStep_of_decoded (placeWord_running s _) (fetch_placeWord s _) hd
  · refine ⟨keepsAllBut_placeWord _ hrun hpc, fun a hne hne' => ?_⟩
    refine Memory.read_writeBytes_of_outside s.mem _ a _ ?_
    rw [fetchPoint_of_lt hpc, show (wordBytes (tableWord 16 w)).length = 2 from rfl]
    omega

/-- Settles O8, by what an instruction can do and, for the other events, by their definition. -/
theorem everyStepAnswersNext : Obligations.EveryStepAnswersNext :=
  ⟨exec_answers_next, step_answers_next⟩

/-- Settles O13: a fault taken is `raise`, which writes the latch only. -/
theorem faultEntryWritesOnlyTheLatch : Obligations.FaultEntryWritesOnlyTheLatch :=
  fun c info s => ⟨s.raise c info, rfl, faultTaken_raise s c info⟩

/-- Settles O15: a failed fetch raises the fault with the greater of `PC` and 4096. -/
theorem fetchBeyondMemoryFaults : Obligations.FetchBeyondMemoryFaults := by
  intro s u hb hrun hpc
  obtain ⟨es, rfl⟩ := eq_setSchedule_of_beginsStep hb
  have hf : (s.setSchedule es).fetch = .error (max s.pc.toNat 4096) :=
    (s.setSchedule es).fetch_of_le (Nat.succ_le_succ hpc)
  refine ⟨_, (step_of_beginsStep hb).trans (instructionStep_of_fetch_error _ _ hrun hf), ?_⟩
  have ht := faultTaken_raise (s.setSchedule es) .outOfBoundsMemoryAccess (BitVec.ofNat 16 (max s.pc.toNat 4096))
  rwa [show (4096 : Nat) = Config.memSize from rfl, toNat_ofNat_max_memSize] at ht

/-- Settles O16: the decoder's `none` raises the fault with the word. -/
theorem unknownWordFaults : Obligations.UnknownWordFaults := by
  intro s u w hb hrun hf hd
  obtain ⟨es, rfl⟩ := eq_setSchedule_of_beginsStep hb
  exact ⟨_, (step_of_beginsStep hb).trans (instructionStep_of_unknown hrun hf hd),
    faultTaken_raise (s.setSchedule es) .unknownOpcode w⟩

/-- Settles O17: a step that ends halted has not completed an instruction, so it has raised a fault. -/
theorem faultsArePrecise : Obligations.FaultsArePrecise := by
  intro s u t hb hrun h hhalt
  obtain ⟨es, rfl⟩ := eq_setSchedule_of_beginsStep hb
  rw [step_of_beginsStep hb] at h
  rcases instructionStep_running_cases (s := s.setSchedule es) hrun with
    ⟨c, info, -, he⟩ | ⟨-, i, he, -, f, v, hdone, hv⟩
  · obtain rfl := (trap_eq_next c info _ t).1 (he.symm.trans h)
    obtain ⟨-, -, hpc, -, hframe⟩ := faultTaken_raise (s.setSchedule es) c info
    exact ⟨hframe, hpc⟩
  · rw [latch_of_finish (hdone.symm.trans (he.symm.trans h)), hv.latch] at hhalt
    simp [hrun] at hhalt

/-- Settles O18: a halted core ignores a `step`, and `tick`, `key` and `load` do not write the latch. -/
theorem haltedCoreWaitsForReset : Obligations.HaltedCoreWaitsForReset := by
  intro s t hh h
  have hlisted : ∀ rest, s.schedule = .step :: rest → t = { s with schedule := rest } := by
    intro rest hs
    rw [step_of_schedule_step s rest hs, instructionStep_of_halted (s := s.setSchedule rest) hh] at h
    cases h
    rfl
  refine ⟨fun hs => ?_, hlisted, fun e rest hs hne => ?_⟩
  · rw [step_of_schedule_nil s hs, instructionStep_of_halted hh] at h
    cases h
    rfl
  · cases e with
    | step => rw [hlisted rest hs]
    | reset => exact absurd rfl hne
    | tick | key => rw [step_of_schedule_cons s _ rest hs] at h; cases h; rfl
    | load a bs => rw [step_of_schedule_cons s _ rest hs] at h; cases h; exact State.load_latch _ a bs

/-- Settles O19: no phase raises the fault of code 2, and no other event writes the latch but `reset`, which
clears it. -/
theorem invalidRegisterIndexUnreachable : Obligations.InvalidRegisterIndexUnreachable := by
  intro s t h hs
  refine rel_of_step (P := fun _ t => t.latch.code ≠ 2) h ?core ?tick ?key ?load ?reset
  case core => exact fun es u hu => instructionStep_code_ne_two hu hs
  case tick => exact fun _ => hs
  case key => exact fun _ _ _ => hs
  case load => exact fun es a bs => (State.load_latch (s.setSchedule es) a bs).symm ▸ hs
  case reset => exact fun _ => show FaultLatch.clear.code ≠ 2 by decide

/-- Settles O54: a final state runs a jump to its own `PC`. -/
theorem finalStateStays : Obligations.FinalStateStays := by
  rintro s ⟨hrun, hpc, hf⟩ hs
  have hself : addressOf (s.pc.setWidth 12) = s.pc := by
    apply BitVec.eq_of_toNat_eq
    rw [addressOf_toNat, BitVec.toNat_setWidth]
    omega
  rw [step_of_schedule_nil s hs, instructionStep_of_decoded hrun hf (decodeWord_wordNNN_1 _), exec_jp, hself]
  rfl

end

/-! # Proof of the statement about the hidden state (spec/10_state.md R14, R19, R22) -/

namespace Sys2Proof.Spec
open Sys2Proof.Machine

/-! ### Two states that a program cannot tell apart, as one state with its hidden parts replaced -/

/-- The state with another `ST`, another array of call-stack slots and another latch. -/
def hide (s : State) (st : Byte) (stack : Vector Word 16) (latch : FaultLatch) : State :=
  { s with st := st, stack := stack, latch := latch }

/-- Slots and latch that a program cannot tell from those of `s`: the same below `SP`, and halted alike. -/
def Hideable (s : State) (stack : Vector Word 16) (latch : FaultLatch) : Prop :=
  (∀ k (_ : k < 16), k < s.sp.val → s.stack[k] = stack[k]) ∧ s.latch.halted = latch.halted

theorem alike_hide {s : State} (st : Byte) {stack : Vector Word 16} {latch : FaultLatch}
    (h : Hideable s stack latch) : Alike s (hide s st stack latch) :=
  ⟨rfl, rfl, rfl, rfl, h.1, rfl, rfl, rfl, rfl, h.2, rfl, rfl⟩

theorem alike_refl (s : State) : Alike s s := alike_hide s.st ⟨fun _ _ _ => rfl, rfl⟩

/-- Alike states differ in the hidden parts only. -/
theorem Alike.eq_hide {s s' : State} (h : Alike s s') :
    s' = hide s s'.st s'.stack s'.latch ∧ Hideable s s'.stack s'.latch := by
  obtain ⟨hv, hi, hpc, hsp, hstack, hdt, hfb, hmem, hkey, hhalted, hdraws, hschedule⟩ := h
  refine ⟨?_, hstack, hhalted⟩
  cases s'
  simp only [hide, State.mk.injEq] at *
  exact ⟨hv.symm, hi.symm, hpc.symm, trivial, hsp.symm, hdt.symm, trivial, hfb.symm, hmem.symm, hkey.symm, trivial,
    hdraws.symm, hschedule.symm⟩

/-! ### Outcomes that a program cannot tell apart -/

/-- Both answer a next state, and a program cannot tell the two apart. -/
def AlikeNext (o o' : Host.Outcome State Fault Refusal) : Prop :=
  ∃ t t', o = .next t ∧ o' = .next t' ∧ Alike t t'

theorem AlikeNext.alike {s s' : State} (h : AlikeNext (.next s) (.next s')) : Alike s s' := by
  obtain ⟨t, t', ht, ht', ha⟩ := h
  cases ht
  cases ht'
  exact ha

theorem alikeNext_finish (f : Flow) {u : State} (st : Byte) {stack : Vector Word 16} {latch : FaultLatch}
    (h : Hideable u stack latch) : AlikeNext (finish f u) (finish f (hide u st stack latch)) :=
  ⟨u.commit f, (hide u st stack latch).commit f, rfl, rfl, alike_hide (s := u.commit f) st h⟩

/-- Whatever the cause, the code and the information of a fault are in the hidden part of the latch. -/
theorem alikeNext_trap (c : FaultCause) (info : Word) {s : State} (st : Byte) {stack : Vector Word 16}
    {latch : FaultLatch} (h : Hideable s stack latch) :
    AlikeNext (trap c info s) (trap c info (hide s st stack latch)) :=
  ⟨s.raise c info, (hide s st stack latch).raise c info, rfl, rfl,
    alike_hide (s := s.raise c info) st ⟨h.1, rfl⟩⟩

/-! ### Each event on a state and on the same with its hidden parts replaced -/

/-- A push writes the slot at `SP` in both. -/
theorem hideable_push {s : State} (a : Word) {stack : Vector Word 16} {latch : FaultLatch}
    (h : Hideable s stack latch) (hsp : s.sp.val < 16) :
    Hideable { s with stack := s.stack.set s.sp.val a, sp := ⟨s.sp.val + 1, by omega⟩ }
      (stack.set s.sp.val a) latch := by
  refine ⟨fun k hk hlt => ?_, h.2⟩
  show (s.stack.set s.sp.val a)[k] = (stack.set s.sp.val a)[k]
  rw [Vector.getElem_set, Vector.getElem_set]
  split
  case isTrue => rfl
  case isFalse hne => exact h.1 k hk (lt_of_le_of_ne (Nat.le_of_lt_succ hlt) (Ne.symm hne))

theorem alikeNext_exec (i : Instr) {s : State} (st : Byte) {stack : Vector Word 16} {latch : FaultLatch}
    (h : Hideable s stack latch) : AlikeNext (exec i s) (exec i (hide s st stack latch)) := by
  cases i with
  | jp | jpv0 | se | sne | ser | sner => exact alikeNext_finish _ st h
  | ldi x | addi x | mov x | or x | and x | xor x | gdt x => exact alikeNext_finish .next (u := s.setV x _) st h
  | add x | sub x | shr x | subn x | shl x => exact alikeNext_finish .next (u := s.setResultAndFlag x _) st h
  | rnd x nn => exact alikeNext_finish .next (u := s.drawn.setV x _) st h
  | lda | adda | font => exact alikeNext_finish .next (u := s.setI _) st h
  | sdt => exact alikeNext_finish .next (u := s.setDT _) st h
  | sst x => exact alikeNext_finish .next (u := s.setST _) (s.getV x) h
  | cls => exact alikeNext_finish .next (u := s.setFB _) st h
  | call nnn =>
    by_cases hsp : s.sp.val < 16
    · rw [exec_call_of_lt nnn s hsp, exec_call_of_lt nnn (hide s st stack latch) hsp]
      exact alikeNext_finish _ st (hideable_push (s.pc + 2) h hsp)
    · have hfull : s.sp.val = 16 := by omega
      rw [exec_call_of_full nnn s hfull, exec_call_of_full nnn (hide s st stack latch) hfull]
      exact alikeNext_trap _ _ st h
  | ret =>
    by_cases hsp : s.sp.val = 0
    · rw [exec_ret_of_empty s hsp, exec_ret_of_empty (hide s st stack latch) hsp]
      exact alikeNext_trap _ _ st h
    · have hpos : 0 < s.sp.val := by omega
      have hslot : s.stack[s.sp.val - 1] = stack[s.sp.val - 1] := h.1 _ _ (by omega)
      have hless : Hideable { s with sp := ⟨s.sp.val - 1, by omega⟩ } stack latch :=
        ⟨fun k hk hlt => h.1 k hk (lt_of_lt_of_le hlt (Nat.sub_le _ _)), h.2⟩
      rw [exec_ret_of_pos s hpos, exec_ret_of_pos (hide s st stack latch) hpos, hslot]
      exact alikeNext_finish _ st hless
  | skp x =>
    by_cases hk : 15 < (s.getV x).toNat
    · rw [exec_skp_of_le x s hk, exec_skp_of_le x (hide s st stack latch) hk]
      exact alikeNext_trap _ _ st h
    · have hlt : (s.getV x).toNat < 16 := by omega
      rw [exec_skp_of_lt x s hlt, exec_skp_of_lt x (hide s st stack latch) hlt]
      exact alikeNext_finish _ st h
  | sknp x =>
    by_cases hk : 15 < (s.getV x).toNat
    · rw [exec_sknp_of_le x s hk, exec_sknp_of_le x (hide s st stack latch) hk]
      exact alikeNext_trap _ _ st h
    · have hlt : (s.getV x).toNat < 16 := by omega
      rw [exec_sknp_of_lt x s hlt, exec_sknp_of_lt x (hide s st stack latch) hlt]
      exact alikeNext_finish _ st h
  | wkey x =>
    cases hk : lowestPressed s.key with
    | none =>
      rw [exec_wkey_of_none x s hk, exec_wkey_of_none x (hide s st stack latch) hk]
      exact alikeNext_finish _ st h
    | some k =>
      rw [exec_wkey_of_some x k s hk, exec_wkey_of_some x k (hide s st stack latch) hk]
      exact alikeNext_finish .next (u := s.setV x _) st h
  | drw x y n =>
    by_cases hm : 0 < n.toNat ∧ 4096 ≤ s.i.toNat + n.toNat - 1
    · rw [exec_drw_outside x y n s hm.1 hm.2, exec_drw_outside x y n (hide s st stack latch) hm.1 hm.2]
      exact alikeNext_trap _ _ st h
    · have hin : n.toNat = 0 ∨ s.i.toNat + n.toNat ≤ 4096 := by omega
      rw [exec_drw_inside x y n s hin, exec_drw_inside x y n (hide s st stack latch) hin]
      exact alikeNext_finish .next (u := (s.setFB _).setV VF _) st h
  | bcd x =>
    by_cases hm : 4096 ≤ s.i.toNat + 2
    · rw [exec_bcd_outside x s hm, exec_bcd_outside x (hide s st stack latch) hm]
      exact alikeNext_trap _ _ st h
    · have hin : s.i.toNat + 2 < 4096 := by omega
      rw [exec_bcd_inside x s hin, exec_bcd_inside x (hide s st stack latch) hin]
      exact alikeNext_finish .next (u := s.setMem _) st h
  | stm x =>
    by_cases hm : 4096 ≤ s.i.toNat + x.val
    · rw [exec_stm_outside x s hm, exec_stm_outside x (hide s st stack latch) hm]
      exact alikeNext_trap _ _ st h
    · have hin : s.i.toNat + x.val < 4096 := by omega
      rw [exec_stm_inside x s hin, exec_stm_inside x (hide s st stack latch) hin]
      exact alikeNext_finish .next (u := s.setMem _) st h
  | ldm x =>
    by_cases hm : 4096 ≤ s.i.toNat + x.val
    · rw [exec_ldm_outside x s hm, exec_ldm_outside x (hide s st stack latch) hm]
      exact alikeNext_trap _ _ st h
    · have hin : s.i.toNat + x.val < 4096 := by omega
      rw [exec_ldm_inside x s hin, exec_ldm_inside x (hide s st stack latch) hin]
      exact alikeNext_finish .next (u := s.setRegs _) st h

theorem alikeNext_instructionStep {s : State} (st : Byte) {stack : Vector Word 16} {latch : FaultLatch}
    (h : Hideable s stack latch) :
    AlikeNext (instructionStep s) (instructionStep (hide s st stack latch)) := by
  have hf' : (hide s st stack latch).fetch = s.fetch := rfl
  have hh' : (hide s st stack latch).latch.halted = s.latch.halted := h.2.symm
  rcases instructionStep_cases s with
    ⟨hh, he⟩ | ⟨hh, bad, hf, he⟩ | ⟨hh, w, hf, hd, he⟩ | ⟨hh, w, i, hf, hd, he⟩
  · rw [he, instructionStep_of_halted (hh'.trans hh)]
    exact ⟨_, _, rfl, rfl, alike_hide st h⟩
  · rw [he, instructionStep_of_fetch_error _ bad (hh'.trans hh) (hf'.trans hf)]
    exact alikeNext_trap _ _ st h
  · rw [he, instructionStep_of_unknown (hh'.trans hh) (hf'.trans hf) hd]
    exact alikeNext_trap _ _ st h
  · rw [he, instructionStep_of_decoded (hh'.trans hh) (hf'.trans hf) hd]
    exact alikeNext_exec i st h

theorem load_hide (s : State) (st : Byte) (stack : Vector Word 16) (latch : FaultLatch) (a : Nat)
    (bs : List Byte) : ((hide s st stack latch).load a bs).2 = hide (s.load a bs).2 st stack latch := by
  unfold State.load
  split <;> rfl

theorem alikeNext_deliver (e : HostEvent) {s : State} (st : Byte) {stack : Vector Word 16}
    {latch : FaultLatch} (h : Hideable s stack latch) :
    AlikeNext (deliver e s) (deliver e (hide s st stack latch)) := by
  cases e with
  | step => exact alikeNext_instructionStep st h
  | tick => exact ⟨_, _, rfl, rfl, alike_hide (s := s.tick) (countDown st) h⟩
  | key k b => exact ⟨_, _, rfl, rfl, alike_hide (s := s.setKey k b) st h⟩
  | load a bs =>
    have hload : Hideable (s.load a bs).2 stack latch := by
      unfold Hideable
      rw [State.load_sp, State.load_stack, State.load_latch]
      exact h
    exact ⟨_, _, rfl, congrArg Host.Outcome.next (load_hide s st stack latch a bs), alike_hide st hload⟩
  | reset => exact ⟨_, _, rfl, rfl, alike_refl _⟩

theorem alikeNext_step {s : State} (st : Byte) {stack : Vector Word 16} {latch : FaultLatch}
    (h : Hideable s stack latch) : AlikeNext (step s) (step (hide s st stack latch)) := by
  cases hs : s.schedule with
  | nil =>
    rw [step_of_schedule_nil s hs, step_of_schedule_nil (hide s st stack latch) hs]
    exact alikeNext_instructionStep st h
  | cons e rest =>
    rw [step_of_schedule_cons s e rest hs, step_of_schedule_cons (hide s st stack latch) e rest hs]
    exact alikeNext_deliver e (s := s.setSchedule rest) st h

end Sys2Proof.Spec

section
open Sys2Proof Sys2Proof.Machine Sys2Proof.Spec

/-- Settles O53: alike states are one state with its hidden parts replaced, and every event does the same on both,
up to those parts. -/
theorem hiddenStateIsUnobservable : Obligations.HiddenStateIsUnobservable := by
  intro s s' t t' ha hstep hstep'
  obtain ⟨heq, hhide⟩ := ha.eq_hide
  have hnext := alikeNext_step s'.st hhide
  rw [← heq, hstep, hstep'] at hnext
  exact hnext.alike

end

/-! # Proofs of the statements about the opcode map (spec/30_encoding.md R64 to R66) -/

namespace Sys2Proof

/-! ### The words that do not decode, family by family (R66) -/

theorem decodeFamily0_eq_none_iff (w : Word) :
    decodeFamily0 w = none ↔ w.toNat ≠ 0x00E0 ∧ w.toNat ≠ 0x00EE := by
  unfold decodeFamily0
  split
  case isTrue h => simp [h]
  case isFalse h =>
    rw [word_eq_iff_toNat] at h
    split
    case isTrue h' => simp [h']
    case isFalse h' =>
      rw [word_eq_iff_toNat] at h'
      exact iff_of_true rfl ⟨h, h'⟩

theorem decodeFamily8_eq_none_iff (x y : Reg) (k : Nat) :
    decodeFamily8 x y k = none ↔ k ∉ [0x0, 0x1, 0x2, 0x3, 0x4, 0x5, 0x6, 0x7, 0xE] := by
  unfold decodeFamily8
  split <;> simp_all

theorem decodeFamilyE_eq_none_iff (x : Reg) (k : Nat) : decodeFamilyE x k = none ↔ k ∉ [0x9E, 0xA1] := by
  unfold decodeFamilyE
  split <;> simp_all

theorem decodeFamilyF_eq_none_iff (x : Reg) (k : Nat) :
    decodeFamilyF x k = none ↔ k ∉ [0x07, 0x0A, 0x15, 0x18, 0x1E, 0x29, 0x33, 0x55, 0x65] := by
  unfold decodeFamilyF
  split <;> simp_all

theorem fieldN_eq_zero_iff (w : Word) : fieldN w = 0#4 ↔ w.toNat % 16 = 0 := by
  rw [← BitVec.toNat_inj, fieldN_toNat]; rfl

end Sys2Proof

section
open Sys2Proof

/-- Settles O3, by the sixteen families of the decoder. -/
theorem illegalWordsByFamily : Obligations.IllegalWordsByFamily := by
  intro w
  have hw : w.toNat < 65536 := w.isLt
  obtain ⟨k, hk⟩ : ∃ k, w.toNat / 4096 = k := ⟨_, rfl⟩
  have hk16 : k < 16 := by omega
  unfold decodeWord
  rw [fieldOp_toNat, hk]
  split
  case h_1 => simp [decodeFamily0_eq_none_iff]; omega
  case h_6 => simp [fieldN_eq_zero_iff]
  case h_9 => simp [decodeFamily8_eq_none_iff, fieldN_toNat]; omega
  case h_10 => simp [fieldN_eq_zero_iff]
  case h_15 => simp [decodeFamilyE_eq_none_iff, fieldNN_toNat]
  case h_16 => simp [decodeFamilyF_eq_none_iff, fieldNN_toNat]
  case h_17 => interval_cases k <;> contradiction
  all_goals simp

end

namespace Sys2Proof

/-! ### The rows of the opcode map (R64) -/

/-- No word can select two rows: on the bits that both masks keep the two patterns differ. -/
theorem rows_disjoint : ∀ r ∈ opcodeRows, ∀ r' ∈ opcodeRows,
    r.pattern &&& r'.mask = r'.pattern &&& r.mask → r = r' := by decide

theorem row_eq_of_selects {w : Word} {r r' : OpcodeRow} (hr : r ∈ opcodeRows) (hr' : r' ∈ opcodeRows)
    (h : r.selects w = true) (h' : r'.selects w = true) : r = r' := by
  have hmatch : w &&& r.mask = r.pattern := eq_of_beq h
  have hmatch' : w &&& r'.mask = r'.pattern := eq_of_beq h'
  refine rows_disjoint r hr r' hr' ?_
  rw [← hmatch, ← hmatch', BitVec.and_assoc, BitVec.and_assoc, BitVec.and_comm r.mask]

theorem mnemonics_nodup : (opcodeRows.map OpcodeRow.mnemonic).Nodup := by decide

theorem masked_all (w : Word) : (w &&& 0xFFFF == w) = true := by rw [mask_all, beq_self_eq_true]

theorem masked_wordNNN (op : Nibble) (nnn : Addr) : (wordNNN op nnn &&& 0xF000 == wordNNN op 0) = true := by
  rw [mask_op, fieldOp_wordNNN, beq_self_eq_true]

theorem masked_wordXNN_op (op : Nibble) (x : Reg) (nn : Byte) :
    (wordXNN op x nn &&& 0xF000 == wordNNN op 0) = true := by
  rw [mask_op, fieldOp_wordXNN, beq_self_eq_true]

theorem masked_wordXYN_op (op : Nibble) (x y : Reg) (n : Nibble) :
    (wordXYN op x y n &&& 0xF000 == wordNNN op 0) = true := by
  rw [mask_op, fieldOp_wordXYN, beq_self_eq_true]

theorem masked_wordXYN (op : Nibble) (x y : Reg) (n : Nibble) :
    (wordXYN op x y n &&& 0xF00F == wordXYN op 0 0 n) = true := by
  rw [mask_op_n, fieldOp_wordXYN, fieldN_wordXYN, beq_self_eq_true]

theorem masked_wordXNN (op : Nibble) (x : Reg) (nn : Byte) :
    (wordXNN op x nn &&& 0xF0FF == wordXNN op 0 nn) = true := by
  rw [mask_op_nn, fieldOp_wordXNN, fieldNN_wordXNN, beq_self_eq_true]

/-- The word of an instruction selects the row of its mnemonic; the constructors stand in the order of the rows. -/
theorem encode_selects_row (i : Instr) :
    ∃ r ∈ opcodeRows, r.mnemonic = i.mnemonic ∧ r.selects (encode i) = true := by
  have hlt : i.ctorIdx < opcodeRows.length := by cases i <;> exact Nat.le_of_ble_eq_true rfl
  refine ⟨opcodeRows[i.ctorIdx], List.getElem_mem hlt, by cases i <;> rfl, ?_⟩
  cases i with
  | cls => exact masked_all 0x00E0
  | ret => exact masked_all 0x00EE
  | jp nnn | call nnn | lda nnn | jpv0 nnn => exact masked_wordNNN _ nnn
  | se x nn | sne x nn | ldi x nn | addi x nn | rnd x nn => exact masked_wordXNN_op _ x nn
  | drw x y n => exact masked_wordXYN_op _ x y n
  | ser x y | mov x y | or x y | and x y | xor x y | add x y | sub x y | shr x y | subn x y | shl x y
  | sner x y => exact masked_wordXYN _ x y _
  | skp x | sknp x | gdt x | wkey x | sdt x | sst x | adda x | font x | bcd x | stm x | ldm x =>
    exact masked_wordXNN _ x _

/-! ### What a row's mask and match say of the word that selects it -/

theorem op_of_masked {w p : Word} (h : w &&& 0xF000 = p) : w.toNat / 4096 = p.toNat / 4096 := by
  rw [← h, mask_op, ← fieldOp_toNat w, ← fieldOp_toNat, fieldOp_wordNNN]

theorem op_n_of_masked {w p : Word} (h : w &&& 0xF00F = p) :
    w.toNat / 4096 = p.toNat / 4096 ∧ w.toNat % 16 = p.toNat % 16 := by
  rw [← h, mask_op_n, ← fieldOp_toNat w, ← fieldOp_toNat, fieldOp_wordXYN, ← fieldN_toNat w, ← fieldN_toNat,
    fieldN_wordXYN]
  exact ⟨rfl, rfl⟩

theorem op_nn_of_masked {w p : Word} (h : w &&& 0xF0FF = p) :
    w.toNat / 4096 = p.toNat / 4096 ∧ w.toNat % 256 = p.toNat % 256 := by
  rw [← h, mask_op_nn, ← fieldOp_toNat w, ← fieldOp_toNat, fieldOp_wordXNN, ← fieldNN_toNat w, ← fieldNN_toNat,
    fieldNN_wordXNN]
  exact ⟨rfl, rfl⟩

/-- The rows by their mask: the whole word, the family, the family and `n`, the family and `nn` (R64). -/
theorem rows_by_mask : ∀ r ∈ opcodeRows,
    (r.mask = 0xFFFF ∧ r.pattern.toNat ∈ [0x00E0, 0x00EE]) ∨
    (r.mask = 0xF000 ∧ r.pattern.toNat / 4096 ∈ [0x1, 0x2, 0x3, 0x4, 0x6, 0x7, 0xA, 0xB, 0xC, 0xD]) ∨
    (r.mask = 0xF00F ∧ r.pattern.toNat / 4096 ∈ [0x5, 0x9] ∧ r.pattern.toNat % 16 = 0) ∨
    (r.mask = 0xF00F ∧ r.pattern.toNat / 4096 = 0x8 ∧
      r.pattern.toNat % 16 ∈ [0x0, 0x1, 0x2, 0x3, 0x4, 0x5, 0x6, 0x7, 0xE]) ∨
    (r.mask = 0xF0FF ∧ r.pattern.toNat / 4096 = 0xE ∧ r.pattern.toNat % 256 ∈ [0x9E, 0xA1]) ∨
    (r.mask = 0xF0FF ∧ r.pattern.toNat / 4096 = 0xF ∧
      r.pattern.toNat % 256 ∈ [0x07, 0x0A, 0x15, 0x18, 0x1E, 0x29, 0x33, 0x55, 0x65]) := by decide

/-- A word that selects a row is none of the illegal words. -/
theorem decodeWord_ne_none_of_selects {w : Word} {r : OpcodeRow} (hr : r ∈ opcodeRows)
    (h : r.selects w = true) : decodeWord w ≠ none := by
  have hmatch : w &&& r.mask = r.pattern := eq_of_beq h
  rw [Ne, illegalWordsByFamily w]
  rcases rows_by_mask r hr with
    ⟨hm, hp⟩ | ⟨hm, hp⟩ | ⟨hm, hp, hn⟩ | ⟨hm, hp, hn⟩ | ⟨hm, hp, hn⟩ | ⟨hm, hp, hn⟩ <;> rw [hm] at hmatch
  · rw [mask_all] at hmatch
    rw [hmatch]
    simp only [List.mem_cons, List.not_mem_nil, or_false] at hp ⊢
    omega
  · have hop := op_of_masked hmatch
    simp only [List.mem_cons, List.not_mem_nil, or_false] at hp
    omega
  · obtain ⟨hop, hlow⟩ := op_n_of_masked hmatch
    simp only [List.mem_cons, List.not_mem_nil, or_false] at hp
    omega
  · obtain ⟨hop, hlow⟩ := op_n_of_masked hmatch
    simp only [List.mem_cons, List.not_mem_nil, or_false] at hn ⊢
    omega
  · obtain ⟨hop, hlow⟩ := op_nn_of_masked hmatch
    simp only [List.mem_cons, List.not_mem_nil, or_false] at hn ⊢
    omega
  · obtain ⟨hop, hlow⟩ := op_nn_of_masked hmatch
    simp only [List.mem_cons, List.not_mem_nil, or_false] at hn ⊢
    omega

/-- A word that decodes to an instruction selects the row of its mnemonic. -/
theorem selects_row_of_decodeWord {w : Word} {i : Instr} (h : decodeWord w = some i) :
    ∃ r ∈ opcodeRows, r.mnemonic = i.mnemonic ∧ r.selects w = true :=
  encode_of_decodeWord h ▸ encode_selects_row i

/-- Rows with the same mnemonic are the same. -/
theorem row_eq_of_mnemonic {r r' : OpcodeRow} (hr : r ∈ opcodeRows) (hr' : r' ∈ opcodeRows)
    (h : r.mnemonic = r'.mnemonic) : r = r' :=
  List.inj_on_of_nodup_map mnemonics_nodup hr hr' h

theorem selects_iff_mnemonic {w : Word} {r : OpcodeRow} (hr : r ∈ opcodeRows) :
    r.selects w = true ↔ ∃ i, decodeWord w = some i ∧ i.mnemonic = r.mnemonic := by
  constructor
  · intro h
    obtain ⟨i, hi⟩ := Option.ne_none_iff_exists'.1 (decodeWord_ne_none_of_selects hr h)
    obtain ⟨r', hr', hm, hsel⟩ := selects_row_of_decodeWord hi
    exact ⟨i, hi, by rw [← hm, row_eq_of_selects hr' hr hsel h]⟩
  · rintro ⟨i, hi, hm⟩
    obtain ⟨r', hr', hm', hsel⟩ := selects_row_of_decodeWord hi
    rwa [row_eq_of_mnemonic hr hr' (hm.symm.trans hm'.symm)]

theorem decodeWord_eq_none_iff_rows (w : Word) :
    decodeWord w = none ↔ ∀ r ∈ opcodeRows, r.selects w = false := by
  constructor
  · exact fun hnone r hr => Bool.eq_false_iff.2 fun h => decodeWord_ne_none_of_selects hr h hnone
  · intro hall
    by_contra hsome
    obtain ⟨i, hi⟩ := Option.ne_none_iff_exists'.1 hsome
    obtain ⟨r, hr, -, hsel⟩ := selects_row_of_decodeWord hi
    simp [hall r hr] at hsel

end Sys2Proof

section
open Sys2Proof

/-- Settles O2: an instruction's word selects the row of its mnemonic, two rows have no word in common, and a word of
a row is none of the illegal ones. -/
theorem decoderFollowsOpcodeMap : Obligations.DecoderFollowsOpcodeMap :=
  ⟨rfl, fun _ _ => selects_iff_mnemonic, fun _ _ hr _ hr' => row_eq_of_selects hr hr', decodeWord_eq_none_iff_rows⟩

end

/-! # Proofs of the statements about flags (spec/40_arithmetic.md R80 to R92, spec/10_state.md R11) -/

namespace Sys2Proof.Machine

/-! ### The flag computations as numbers (R81) -/

theorem toNat_flagByte (b : Bool) : (flagByte b).toNat = if b = true then 1 else 0 := by
  cases b <;> rfl

theorem flagByte_eq_zero_or_one (b : Bool) : flagByte b = 0x00 ∨ flagByte b = 0x01 := by
  cases b
  · exact .inl rfl
  · exact .inr rfl

theorem toNat_addWithCarry_fst (a b : Byte) : (addWithCarry a b).1.toNat = (a.toNat + b.toNat) % 256 :=
  BitVec.toNat_ofNat _ _

theorem toNat_addWithCarry_flag (a b : Byte) :
    (flagByte (addWithCarry a b).2).toNat = if a.toNat + b.toNat > 255 then 1 else 0 := by
  simp only [toNat_flagByte, addWithCarry, decide_eq_true_eq, gt_iff_lt]

theorem toNat_subWithNotBorrow_fst (a b : Byte) :
    (subWithNotBorrow a b).1.toNat = (a.toNat + 256 - b.toNat) % 256 := by
  have ha : a.toNat < 256 := a.isLt
  have hb : b.toNat < 256 := b.isLt
  rw [subWithNotBorrow, BitVec.toNat_ofInt]
  omega

theorem toNat_subWithNotBorrow_flag (a b : Byte) :
    (flagByte (subWithNotBorrow a b).2).toNat = if a.toNat ≥ b.toNat then 1 else 0 := by
  simp only [toNat_flagByte, subWithNotBorrow, decide_eq_true_eq, ge_iff_le]

/-- A bit of a byte as the number that the flag holds. -/
theorem toNat_flagByte_getLsbD (a : Byte) (k : Nat) :
    (flagByte (a.getLsbD k)).toNat = a.toNat / 2 ^ k % 2 := by
  rw [toNat_flagByte, ← BitVec.testBit_toNat, Nat.testBit_eq_decide_div_mod_eq]
  simp only [decide_eq_true_eq]
  split <;> omega

theorem toNat_shiftRight_fst (a : Byte) : (shiftRight a).1.toNat = a.toNat / 2 := by
  have ha : a.toNat < 256 := a.isLt
  rw [shiftRight, BitVec.toNat_ofNat]
  omega

theorem toNat_shiftRight_flag (a : Byte) : (flagByte (shiftRight a).2).toNat = a.toNat % 2 := by
  rw [shiftRight, toNat_flagByte_getLsbD, pow_zero, Nat.div_one]

theorem toNat_shiftLeft_fst (a : Byte) : (shiftLeft a).1.toNat = a.toNat * 2 % 256 :=
  BitVec.toNat_ofNat _ _

theorem toNat_shiftLeft_flag (a : Byte) : (flagByte (shiftLeft a).2).toNat = a.toNat / 128 := by
  have ha : a.toNat < 256 := a.isLt
  rw [shiftLeft, toNat_flagByte_getLsbD]
  omega

end Sys2Proof.Machine

namespace Sys2Proof.Spec
open Sys2Proof.Machine

/-- An instruction whose meaning is a result and then a flag completes with both (R80). -/
theorem completesWithFlag_of_exec {i : Instr} {s : State} {x : Reg} {p : Byte × Bool}
    (h : exec i s = finish .next (s.setResultAndFlag x p)) :
    CompletesWithFlag i s x p.1.toNat (flagByte p.2).toNat := by
  have hget (r : Reg) := s.getV_setResultAndFlag x r p
  refine ⟨_, h, congrArg BitVec.toNat (hget 15), fun hx => ?_, fun r hr hr15 => ?_, rfl,
    keepsAllBut_registers_pc s _ _⟩
  · refine congrArg BitVec.toNat ((hget x).trans ?_)
    rw [if_neg (show x ≠ VF from hx), if_pos rfl]
  · refine (hget r).trans ?_
    rw [if_neg (show r ≠ VF from hr15), if_neg hr]

theorem flag_of_finish {s t : State} {x : Reg} {p : Byte × Bool}
    (h : finish .next (s.setResultAndFlag x p) = .next t) : t.getV 15 = 0x00 ∨ t.getV 15 = 0x01 := by
  obtain rfl := (finish_eq_next _ _ _).1 h
  rw [State.getV_commit, State.getV_setResultAndFlag, if_pos (show (15 : Reg) = VF from rfl)]
  exact flagByte_eq_zero_or_one p.2

/-- A flag-defining instruction that completes leaves a flag in VF (R11). -/
theorem flag_of_definesFlag {i : Instr} {s t : State} (h : exec i s = .next t) (hd : definesFlag i = true)
    (hrun : t.latch.halted = false) : t.getV 15 = 0x00 ∨ t.getV 15 = 0x01 := by
  cases i with
  | add x y => exact flag_of_finish h
  | sub x y => exact flag_of_finish h
  | shr x y => exact flag_of_finish h
  | subn x y => exact flag_of_finish h
  | shl x y => exact flag_of_finish h
  | drw x y n =>
    have hf := faultOf_eq_none_of_running h hrun
    simp only [faultOf, ite_eq_right_iff, reduceCtorEq, imp_false] at hf
    rw [exec_drw_inside x y n s (by omega)] at h
    obtain rfl := (finish_eq_next _ _ _).1 h
    rw [State.getV_commit, show (15 : Reg) = VF from rfl, State.getV_setV_self]
    exact flagByte_eq_zero_or_one _
  | _ => simp [definesFlag] at hd

/-- Among the writers of R12 those that can write VF define a flag or name it (R11). -/
theorem namesVF_of_mayWriteRegister {i : Instr} {s : State} (hd : definesFlag i = false)
    (hw : mayWriteRegister i s 15) : namesVF i = true := by
  cases i with
  | ldi | addi | mov | or | and | xor | rnd | gdt => exact beq_of_eq (Eq.symm hw)
  | wkey => exact beq_of_eq (Eq.symm hw.1)
  | ldm x => exact beq_of_eq (le_antisymm (Fin.le_last x) hw)
  | add | sub | shr | subn | shl | drw => simp [definesFlag] at hd
  | _ => exact hw.elim

end Sys2Proof.Spec

section
open Sys2Proof Sys2Proof.Machine Sys2Proof.Spec

/-- Settles O25, by the number that each flag computation stands for. -/
theorem addSubtractWithFlag : Obligations.AddSubtractWithFlag := by
  intro x y s
  have hadd := completesWithFlag_of_exec (exec_add x y s)
  have hsub := completesWithFlag_of_exec (exec_sub x y s)
  have hsubn := completesWithFlag_of_exec (exec_subn x y s)
  rw [toNat_addWithCarry_fst, toNat_addWithCarry_flag] at hadd
  rw [toNat_subWithNotBorrow_fst, toNat_subWithNotBorrow_flag] at hsub hsubn
  exact ⟨hadd, hsub, hsubn⟩

/-- Settles O26, by the number that each shift stands for. -/
theorem shiftsWithFlag : Obligations.ShiftsWithFlag := by
  intro x y s
  have hshr := completesWithFlag_of_exec (exec_shr x y s)
  have hshl := completesWithFlag_of_exec (exec_shl x y s)
  rw [toNat_shiftRight_fst, toNat_shiftRight_flag] at hshr
  rw [toNat_shiftLeft_fst, toNat_shiftLeft_flag] at hshl
  exact ⟨hshr, hshl⟩

/-- Settles O27: the last write of a flag-defining instruction is a flag, and a change of VF by any other is by a
writer that names it. -/
theorem onlyFlagInstructionsWriteVF : Obligations.OnlyFlagInstructionsWriteVF := by
  intro i s t _ h
  refine ⟨flag_of_definesFlag h, fun hd hn => ?_⟩
  by_contra hne
  obtain ⟨hregisters, -⟩ := whoWritesWhat i s t h
  simp [namesVF_of_mayWriteRegister hd (hregisters 15 hne)] at hn

end

/-! # Proofs of the statements about the call stack and `JPV0` (spec/41_control_flow.md R102 to R104) -/

namespace Sys2Proof.Spec
open Sys2Proof.Machine

/-- The frame of `CALL` and `RET`. -/
theorem keepsAllBut_stack_pc (s : State) (stack : Vector Word 16) (sp : Fin 17) (pc : Word) :
    KeepsAllBut [.stack, .pc] s { s with stack := stack, sp := sp, pc := pc } := by
  simp [keepsAllBut_iff, State.getV]

theorem Part.same_refl (p : Part) (s : State) : p.same s s := by
  cases p with
  | registers | memory => exact fun _ => rfl
  | stack => exact ⟨rfl, rfl⟩
  | index | pc | delayTimer | soundTimer | screen | keys | latch | draws | schedule => rfl

theorem Part.same_trans {p : Part} {s t u : State} (h : p.same s t) (h' : p.same t u) : p.same s u := by
  cases p with
  | registers | memory => exact fun a => (h' a).trans (h a)
  | stack => exact ⟨h'.1.trans h.1, h'.2.trans h.2⟩
  | index | pc | delayTimer | soundTimer | screen | keys | latch | draws | schedule => exact Eq.trans h' h

theorem keepsAllBut_refl (changed : List Part) (s : State) : KeepsAllBut changed s s :=
  fun p _ => p.same_refl s

theorem KeepsAllBut.trans {changed : List Part} {s t u : State} (h : KeepsAllBut changed s t)
    (h' : KeepsAllBut changed t u) : KeepsAllBut changed s u :=
  fun p hp => Part.same_trans (h p hp) (h' p hp)

theorem next_inj {s t : State} (h : (.next s : Host.Outcome State Fault Refusal) = .next t) : s = t := by
  cases h; rfl

end Sys2Proof.Spec

section
open Sys2Proof Sys2Proof.Machine Sys2Proof.Spec

/-- Settles O29: the unreduced sum fits 16 bits. -/
theorem jumpIndexed : Obligations.JumpIndexed :=
  fun nnn s => ⟨s.indexedTarget nnn, indexedTarget_toNat s nnn, completesWithPc_of_exec (exec_jpv0 nnn s)⟩

/-- Settles O30: `CALL` writes one slot, the one at `SP`. -/
theorem callPushesReturnAddress : Obligations.CallPushesReturnAddress := by
  intro nnn s h
  refine ⟨_, exec_call_of_lt nnn s h, rfl, ?_, fun k hk hne => ?_, addressOf_toNat nnn,
    keepsAllBut_stack_pc s _ _ _⟩
  · exact Vector.getElem_set_self h
  · exact Vector.getElem_set_ne h hk (Ne.symm hne)

/-- Settles O31: `RET` reads the slot below `SP` and writes none. -/
theorem returnPops : Obligations.ReturnPops := by
  intro s k hk hsp
  refine ⟨_, exec_ret_of_pos s (by omega), ?_, ?_, rfl, keepsAllBut_stack_pc s _ _ _⟩
  · exact Nat.sub_eq_of_eq_add hsp
  · simp [hsp]

/-- Settles O32: the return pops the slot that the call pushed. -/
theorem returnUndoesCall : Obligations.ReturnUndoesCall := by
  intro nnn s t u hsp hcall hret
  obtain ⟨t', hcall', hspt, hpushed, hothers, -, hframe⟩ := callPushesReturnAddress nnn s hsp
  obtain rfl := next_inj (hcall'.symm.trans hcall)
  obtain ⟨u', hret', hspu, hpc, hstack, hframe'⟩ := returnPops t' s.sp.val hsp hspt
  obtain rfl := next_inj (hret'.symm.trans hret)
  refine ⟨hpc.trans hpushed, Fin.ext hspu, fun k hk hlt => ?_, hframe.trans hframe'⟩
  simp only [hstack]
  exact hothers k hk (Nat.ne_of_lt hlt)

end

/-! # Proofs of the statements about memory (spec/20_memory.md R41 to R52, spec/42_memory_ops.md R121 to R125) -/

namespace Sys2Proof.Machine

/-! ### What a canonical memory reads as -/

theorem Memory.read_of_not_listed (m : Memory) (a : Nat) (h : ∀ c ∈ m, c.1 ≠ a) :
    m.read a = Memory.unlisted a := by
  induction m with
  | nil => rfl
  | cons c rest ih =>
    rw [Memory.read, if_neg (h c List.mem_cons_self)]
    exact ih fun d hd => h d (List.mem_cons_of_mem c hd)

theorem Memory.read_cons_self (a : Nat) (v : Byte) (m : Memory) : Memory.read ((a, v) :: m) a = v := if_pos rfl

theorem Memory.wf_tail {c : Host.Cell} {m : Memory} (h : Memory.wf (c :: m)) : Memory.wf m :=
  ⟨(List.pairwise_cons.1 h.1).2, fun d hd => h.2 d (List.mem_cons_of_mem c hd)⟩

/-- The first cell of a canonical memory has the lowest address listed, so below it nothing is. -/
theorem Memory.read_below {c : Host.Cell} {m : Memory} (h : Memory.wf (c :: m)) {a : Nat} (ha : a < c.1) :
    Memory.read (c :: m) a = Memory.unlisted a := by
  refine Memory.read_of_not_listed _ a fun d hd => ?_
  rcases List.mem_cons.1 hd with rfl | hd
  · exact ha.ne'
  · exact (ha.trans ((List.pairwise_cons.1 h.1).1 d hd)).ne'

/-- After the first cell its address is not listed again. -/
theorem Memory.read_tail_self {c : Host.Cell} {m : Memory} (h : Memory.wf (c :: m)) :
    m.read c.1 = Memory.unlisted c.1 :=
  Memory.read_of_not_listed m c.1 fun d hd => ((List.pairwise_cons.1 h.1).1 d hd).ne'

/-- A listed cell is seen: it does not hold what its address reads as unlisted. -/
theorem Memory.read_head_ne {a : Nat} {v : Byte} {m : Memory} (h : Memory.wf ((a, v) :: m)) :
    Memory.read ((a, v) :: m) a ≠ Memory.unlisted a := by
  rw [Memory.read_cons_self]
  exact (h.2 (a, v) List.mem_cons_self).2

theorem Memory.eq_of_read (m m' : Memory) (h : m.wf) (h' : m'.wf) (hr : ∀ a, m.read a = m'.read a) : m = m' := by
  induction m generalizing m' with
  | nil =>
    cases m' with
    | nil => rfl
    | cons d _ => exact absurd (hr d.1).symm (Memory.read_head_ne h')
  | cons c rest ih =>
    obtain ⟨a, v⟩ := c
    cases m' with
    | nil => exact absurd (hr a) (Memory.read_head_ne h)
    | cons d rest' =>
      obtain ⟨b, w⟩ := d
      rcases Nat.lt_trichotomy a b with hab | rfl | hba
      · exact absurd ((hr a).trans (Memory.read_below h' hab)) (Memory.read_head_ne h)
      · have hvw : v = w := by
          have hra := hr a
          rwa [Memory.read_cons_self, Memory.read_cons_self] at hra
        rw [hvw, ih rest' (Memory.wf_tail h) (Memory.wf_tail h') fun e => ?_]
        by_cases he : a = e
        · subst he
          exact (Memory.read_tail_self h).trans (Memory.read_tail_self h').symm
        · have hre := hr e
          rwa [Memory.read, Memory.read, if_neg he, if_neg he] at hre
      · exact absurd ((hr b).symm.trans (Memory.read_below h hba)) (Memory.read_head_ne h')

end Sys2Proof.Machine

namespace Sys2Proof.Spec
open Sys2Proof.Machine

/-- The frame of every instruction that writes memory and `PC` only. -/
theorem keepsAllBut_memory_pc (s : State) (mem : Memory) (pc : Word) :
    KeepsAllBut [.memory, .pc] s { s with mem := mem, pc := pc } := by
  simp [keepsAllBut_iff, State.getV]

/-- The three digits of a byte, each below 10 (R123). -/
theorem decimalDigits_toNat (b : Byte) :
    (decimalDigits b)[0].toNat = b.toNat / 100 ∧ (decimalDigits b)[1].toNat = b.toNat / 10 % 10 ∧
    (decimalDigits b)[2].toNat = b.toNat % 10 := by
  have hb : b.toNat < 256 := b.isLt
  simp only [decimalDigits, List.getElem_cons_zero, List.getElem_cons_succ, BitVec.toNat_ofNat]
  omega

end Sys2Proof.Spec

section
open Sys2Proof Sys2Proof.Machine Sys2Proof.Spec

/-- Settles O21, by induction on the cells: at the lower of the first two addresses the memories would read
differently. -/
theorem canonicalMemoryIsUnique : Obligations.CanonicalMemoryIsUnique := Memory.eq_of_read

/-- Settles O35: `ADDA` is one write of `I`, a sum of 16-bit values. -/
theorem addToAddressRegister : Obligations.AddToAddressRegister := by
  intro x s
  have h := completesWithIndex_of_exec (exec_adda x s)
  rwa [BitVec.toNat_add, widen_toNat] at h

/-- Settles O36: the block written is the list of the three digits. -/
theorem bcdStoresDigits : Obligations.BcdStoresDigits := by
  intro x s hin
  have hb : (s.getV x).toNat < 256 := (s.getV x).isLt
  obtain ⟨hhundreds, htens, hones⟩ := decimalDigits_toNat (s.getV x)
  have hread (k : Nat) (hk : k < 3) :=
    s.mem.read_writeBytes_of_inside s.i.toNat k (decimalDigits (s.getV x)) hk
  refine ⟨_, exec_bcd_inside x s hin, (s.getV x).toNat / 100, (s.getV x).toNat / 10 % 10, (s.getV x).toNat % 10,
    by omega, by omega, by omega, by omega, ?_, ?_, ?_, fun a ha => ?_, rfl, keepsAllBut_memory_pc s _ _⟩
  · exact (congrArg BitVec.toNat (hread 0 (by decide))).trans hhundreds
  · exact (congrArg BitVec.toNat (hread 1 (by decide))).trans htens
  · exact (congrArg BitVec.toNat (hread 2 (by decide))).trans hones
  · exact s.mem.read_writeBytes_of_outside s.i.toNat a (decimalDigits (s.getV x)) ha

/-- Settles O37: the block written is the list of the registers. -/
theorem storeMultiple : Obligations.StoreMultiple := by
  intro x s hin
  refine ⟨_, exec_stm_inside x s hin, fun k hk => ?_, fun a ha => ?_, rfl, keepsAllBut_memory_pc s _ _⟩
  · have hlt : k.val < (s.regsUpTo x).length := by
      rw [s.regsUpTo_length]
      exact Nat.lt_succ_of_le hk
    exact (s.mem.read_writeBytes_of_inside s.i.toNat k.val _ hlt).trans (s.regsUpTo_getElem x k hlt)
  · refine s.mem.read_writeBytes_of_outside s.i.toNat a (s.regsUpTo x) ?_
    rw [s.regsUpTo_length]
    exact ha

/-- Settles O38: the registers written are the bytes read. -/
theorem loadMultiple : Obligations.LoadMultiple := by
  intro x s hin
  refine ⟨_, exec_ldm_inside x s hin, fun k hk => ?_, fun k hk => ?_, rfl, keepsAllBut_registers_pc s _ _⟩
  · rw [State.getV_commit, State.getV_setRegs, s.mem.readBytes_getElem? _ _ _ (Nat.lt_succ_of_le hk)]
    rfl
  · refine getV_setRegs_of_le s _ k ?_
    rw [Memory.readBytes_length]
    exact hk

/-- Settles O39: each way the second instruction works on what the first has put at the same addresses. -/
theorem storeLoadRoundTrip : Obligations.StoreLoadRoundTrip := by
  intro x s hin
  constructor
  · intro t u v hstm hmem hi hldm k hk
    obtain ⟨t', hstm', hstored, -, -, hframe⟩ := storeMultiple x s hin
    obtain rfl := next_inj (hstm'.symm.trans hstm)
    have hiu : u.i = s.i := hi.trans (hframe .index (by simp))
    obtain ⟨v', hldm', hloaded, -⟩ := loadMultiple x u (by rw [hiu]; exact hin)
    obtain rfl := next_inj (hldm'.symm.trans hldm)
    rw [hloaded k hk, hmem, State.effectiveAddress, hiu]
    exact hstored k hk
  · intro t u hldm hstm a
    obtain ⟨t', hldm', hloaded, -, -, hframe⟩ := loadMultiple x s hin
    obtain rfl := next_inj (hldm'.symm.trans hldm)
    have hit : t'.i = s.i := hframe .index (by simp)
    obtain ⟨u', hstm', hstored, houtside, -⟩ := storeMultiple x t' (by rw [hit]; exact hin)
    obtain rfl := next_inj (hstm'.symm.trans hstm)
    simp only [State.effectiveAddress, hit] at hstored houtside hloaded
    by_cases ha : s.i.toNat ≤ a ∧ a < s.i.toNat + (x.val + 1)
    · obtain ⟨k, rfl⟩ := Nat.exists_eq_add_of_le ha.1
      have hx := x.isLt
      have hk : (⟨k, by omega⟩ : Reg) ≤ x := Fin.le_def.2 (by simp only; omega)
      exact (hstored _ hk).trans (hloaded _ hk)
    · exact (houtside a (by omega)).trans (hframe .memory (by simp) a)

/-- Settles O22: the bytes that the fetch reads are two of the stored registers. -/
theorem storedBytesAreFetched : Obligations.StoredBytesAreFetched := by
  intro s x hin
  obtain ⟨t, hstm, hstored, -⟩ := storeMultiple x s hin
  refine ⟨t, hstm, fun k k' hk' hle => ?_⟩
  have hpc : (s.i + BitVec.ofNat 16 k.val).toNat = s.i.toNat + k.val := by
    rw [BitVec.toNat_add, BitVec.toNat_ofNat]
    omega
  have hhi := hstored k (Fin.le_def.2 (by omega))
  have hlo := hstored k' (Fin.le_def.2 hle)
  rw [State.effectiveAddress] at hhi hlo
  have hfetch := State.fetch_of_lt { t with pc := s.i + BitVec.ofNat 16 k.val }
    (show (s.i + BitVec.ofNat 16 k.val).toNat + 1 < 4096 by omega)
  simp only [hpc, Nat.add_assoc, ← hk', hhi, hlo] at hfetch
  exact hfetch

end

/-! # Proofs of the statements about drawing (spec/43_display.md R141 to R146) -/

namespace Sys2Proof.Spec
open Sys2Proof.Machine

/-- The cells that a sprite hits are those that the list of its rows gives. -/
theorem hit_iff_mem_spriteCells (s : State) (x y : Reg) (n : Nibble) (k : Nat) : Hit s x y n k ↔
    k ∈ spriteCells (s.getV x) (s.getV y) 0 (s.mem.readBytes s.i.toNat n.toNat) := by
  rw [mem_spriteCells]
  constructor
  · rintro ⟨r, c, hr, hc, hbit, rfl⟩
    refine ⟨r, by rwa [Memory.readBytes_length], c, hc, ?_, by rw [Nat.zero_add]; rfl⟩
    rw [Memory.readBytes_getElem]
    exact hbit
  · rintro ⟨r, hr, c, hc, hbit, rfl⟩
    rw [Memory.readBytes_getElem] at hbit
    exact ⟨r, c, by rwa [Memory.readBytes_length] at hr, hc, hbit, by rw [Nat.zero_add]; rfl⟩

/-- A sprite of at most 15 rows hits no cell twice, so it flips each cell that it hits once (R146). -/
theorem drawing_spec (s : State) (x y : Reg) (n : Nibble) :
    (∀ k, Screen.lit (s.drawing x y n).1 k = (Screen.lit s.fb k ^^ decide (k ∈
      spriteCells (s.getV x) (s.getV y) 0 (s.mem.readBytes s.i.toNat n.toNat)))) ∧
    (s.drawing x y n).2 = (spriteCells (s.getV x) (s.getV y) 0
      (s.mem.readBytes s.i.toNat n.toNat)).any (Screen.lit s.fb) := by
  have hn : n.toNat < 16 := n.isLt
  have hnodup := spriteCells_nodup (s.getV x) (s.getV y) 0 (s.mem.readBytes s.i.toNat n.toNat)
    (by rw [Memory.readBytes_length]; omega)
  have hbound : ∀ k ∈ spriteCells (s.getV x) (s.getV y) 0 (s.mem.readBytes s.i.toNat n.toNat), k < 2048 := by
    intro k hk
    obtain ⟨j, -, c, -, -, rfl⟩ := (mem_spriteCells _ _ _ _ _).1 hk
    exact spriteCell_lt _ _ _ _
  have hfold := foldl_flipCell _ hnodup hbound (s.fb, false)
  rw [← drawRows_eq_foldl, Bool.false_or] at hfold
  exact hfold

theorem lit_drawing_of_hit {s : State} {x y : Reg} {n : Nibble} {k : Nat} (h : Hit s x y n k) :
    Screen.lit (s.drawing x y n).1 k = !Screen.lit s.fb k := by
  rw [(drawing_spec s x y n).1, decide_eq_true ((hit_iff_mem_spriteCells s x y n k).1 h), Bool.xor_true]

theorem lit_drawing_of_not_hit {s : State} {x y : Reg} {n : Nibble} {k : Nat} (h : ¬ Hit s x y n k) :
    Screen.lit (s.drawing x y n).1 k = Screen.lit s.fb k := by
  rw [(drawing_spec s x y n).1, decide_eq_false (fun hk => h ((hit_iff_mem_spriteCells s x y n k).2 hk)),
    Bool.xor_false]

/-- A collision is a lit cell that the sprite hits (R145). -/
theorem drawing_collides_iff (s : State) (x y : Reg) (n : Nibble) :
    (s.drawing x y n).2 = true ↔ ∃ k, Hit s x y n k ∧ Screen.lit s.fb k = true := by
  rw [(drawing_spec s x y n).2, List.any_eq_true]
  exact exists_congr fun k => and_congr_left' (hit_iff_mem_spriteCells s x y n k).symm

/-- The frame of `DRW`. -/
theorem keepsAllBut_registers_screen_pc (s : State) (v : Vector Byte 16) (fb : Screen) (pc : Word) :
    KeepsAllBut [.registers, .screen, .pc] s { s with v := v, fb := fb, pc := pc } := by
  simp [keepsAllBut_iff, State.getV]

/-- The same sprite at the same place hits the same cells, whatever the frame buffer holds. -/
theorem hit_congr {s t : State} {x y : Reg} (n : Nibble) (hx : t.getV x = s.getV x) (hy : t.getV y = s.getV y)
    (hi : t.i = s.i) (hmem : ∀ a, t.mem.read a = s.mem.read a) (k : Nat) : Hit t x y n k ↔ Hit s x y n k := by
  simp only [Hit, hx, hy, hi, hmem]

end Sys2Proof.Spec

section
open Sys2Proof Sys2Proof.Machine Sys2Proof.Spec

/-- Settles O41: the drawing is one flip of each cell that the sprite hits, no cell being hit twice. -/
theorem drawFlipsTheSpriteCells : Obligations.DrawFlipsTheSpriteCells := by
  intro x y n s hin
  have hflag : State.getV ((s.setFB (s.drawing x y n).1).setV VF (flagByte (s.drawing x y n).2)) 15 =
      flagByte (s.drawing x y n).2 := State.getV_setV_self _ VF _
  refine ⟨_, exec_drw_inside x y n s hin, fun k => ⟨lit_drawing_of_hit, lit_drawing_of_not_hit⟩, fun h => ?_,
    fun h => ?_, fun r hr => ?_, rfl, keepsAllBut_registers_screen_pc s _ _ _⟩
  · rw [State.getV_commit, hflag, (drawing_collides_iff s x y n).2 h]
    rfl
  · rw [State.getV_commit, hflag, Bool.eq_false_iff.2 (mt (drawing_collides_iff s x y n).1 h)]
    rfl
  · exact State.getV_setV_of_ne _ VF r _ hr

/-- Settles O42: the second draw hits the same cells, and flips back what the first has flipped. -/
theorem drawTwiceRestores : Obligations.DrawTwiceRestores := by
  intro x y n s hx hy hin
  obtain ⟨t, ht, hcells, -, hclear, hother, -, hframe⟩ := drawFlipsTheSpriteCells x y n s hin
  have hi : t.i = s.i := hframe .index (by simp)
  have hmem : ∀ a, t.mem.read a = s.mem.read a := hframe .memory (by simp)
  have hhit := hit_congr n (hother x hx) (hother y hy) hi hmem
  obtain ⟨u, hu, hcells', hset', -⟩ := drawFlipsTheSpriteCells x y n t (by rw [hi]; exact hin)
  refine ⟨t, u, ht, hu, Screen.ext_lit _ _ fun k => ?_, fun hdark hsome => ⟨?_, ?_⟩⟩
  · by_cases hk : Hit s x y n k
    · rw [(hcells' k).1 ((hhit k).2 hk), (hcells k).1 hk, Bool.not_not]
    · rw [(hcells' k).2 (mt (hhit k).1 hk), (hcells k).2 hk]
  · refine hclear ?_
    rintro ⟨k, -, hlit⟩
    simp [hdark k] at hlit
  · obtain ⟨k, hk⟩ := hsome
    refine hset' ⟨k, (hhit k).2 hk, ?_⟩
    rw [(hcells k).1 hk, hdark k, Bool.not_false]

end

/-! # Proofs of the statements about the keypad and the random number (spec/44_timer_keypad_random.md R153 to R156) -/

namespace Sys2Proof.Spec
open Sys2Proof.Machine

theorem lowestPressed_of_least {keys : Vector Bool 16} {k : Reg} (hk : keys[k] = true)
    (hl : ∀ j : Reg, j < k → keys[j] = false) : lowestPressed keys = some k := by
  refine List.find?_eq_some_iff_getElem.2 ⟨hk, k.val, by simp, by simp, fun j hj => ?_⟩
  rw [List.getElem_finRange]
  simp [hl ⟨j, by omega⟩ hj]

/-- The frame of `RND`. -/
theorem keepsAllBut_registers_pc_draws (s : State) (v : Vector Byte 16) (pc : Word) (draws : Nat) :
    KeepsAllBut [.registers, .pc, .draws] s { s with v := v, pc := pc, draws := draws } := by
  simp [keepsAllBut_iff, State.getV]

end Sys2Proof.Spec

section
open Sys2Proof Sys2Proof.Machine Sys2Proof.Spec

/-- Settles O44: the index in `V[x]` names key `k`, and the two skips commit on its level and on the opposite. -/
theorem keySkips : Obligations.KeySkips := by
  intro x k s hk
  have hlt : (s.getV x).toNat < 16 := hk ▸ k.isLt
  have hkey : s.keyPressed ⟨(s.getV x).toNat, hlt⟩ = s.key[k] := congrArg s.keyPressed (Fin.ext hk)
  have hskp := completesWithPc_of_exec (exec_skp_of_lt x s hlt)
  have hsknp := completesWithPc_of_exec (exec_sknp_of_lt x s hlt)
  rw [skipIf_target, hkey] at hskp hsknp
  refine ⟨hskp, ?_⟩
  cases hlevel : s.key[k] with
  | false => rwa [hlevel] at hsknp
  | true => rwa [hlevel] at hsknp

/-- Settles O45: with no key pressed the retry commits the old `PC`; else the key found is the least pressed. -/
theorem waitForKey : Obligations.WaitForKey := by
  intro x s
  refine ⟨fun hnone => ?_, fun k hk hl => ?_⟩
  · exact exec_wkey_of_none x s ((lowestPressed_eq_none_iff s.key).2 hnone)
  · exact completesWithRegister_of_exec (exec_wkey_of_some x k s (lowestPressed_of_least hk hl))

/-- Settles O46: the byte written is the drawn byte masked. -/
theorem randomByteIsMasked : Obligations.RandomByteIsMasked := by
  intro x nn s
  have hx := s.drawn.getV_setV_self x (maskDraw s.randomByte nn)
  refine ⟨_, exec_rnd x nn s, hx, fun k hk => ?_, fun r hr => s.drawn.getV_setV_of_ne x r _ hr, rfl, rfl,
    keepsAllBut_registers_pc_draws s _ _ _⟩
  rw [State.getV_commit, hx, maskDraw, BitVec.getLsbD_and, hk, Bool.and_false]

end

/-! # Proofs of the statements about the other events (spec/60_exceptions.md R185 to R190, R200 of
spec/70_reset_and_hazards.md) -/

namespace Sys2Proof.Spec
open Sys2Proof.Machine

/-- The frame of every event that writes the keypad, memory or neither: whichever of the two is not listed as changed
must be given its old value. -/
theorem keepsAllBut_keys_memory_schedule {changed : List Part} {s : State} {key : Vector Bool 16} {mem : Memory}
    {es : List HostEvent} (hkey : .keys ∉ changed → key = s.key) (hmem : .memory ∉ changed → mem = s.mem)
    (hes : .schedule ∉ changed → es = s.schedule) :
    KeepsAllBut changed s { s with key := key, mem := mem, schedule := es } := by
  intro p hp
  cases p with
  | keys => exact hkey hp
  | memory => exact fun a => congrArg (Memory.read · a) (hmem hp)
  | schedule => exact hes hp
  | registers => exact fun _ => rfl
  | stack => exact ⟨rfl, rfl⟩
  | index | pc | delayTimer | soundTimer | screen | latch | draws => rfl

/-- What nothing has written since reset reads as the font, and above it as 0 (R48, R201). -/
theorem read_reset_font (a : Nat) (h : a < 80) :
    ∃ b, Config.font[a]? = some b ∧ State.reset.mem.read a = b :=
  ⟨_, List.getElem?_eq_getElem (by rw [font_length]; exact h), Memory.unlisted_font a h⟩

theorem getV_reset (r : Reg) : State.reset.getV r = 0 := Vector.getElem_replicate r.isLt

end Sys2Proof.Spec

section
open Sys2Proof Sys2Proof.Machine Sys2Proof.Spec

/-- Settles O48, by induction on the number of ticks: each counts both timers down by one. -/
theorem ticksReachZero : Obligations.TicksReachZero := by
  intro j
  induction j with
  | zero => exact fun s rest hs => ⟨s, rfl, rfl, rfl, hs, keepsAllBut_refl _ s⟩
  | succ j ih =>
    intro s rest hs
    have hstep := step_of_schedule_tick s (List.replicate j HostEvent.tick ++ rest) hs
    obtain ⟨t, hrun, hdt, hst, hrest, hframe⟩ :=
      ih (s.setSchedule (List.replicate j .tick ++ rest)).tick rest rfl
    refine ⟨t, (run_succ j s _ hstep).trans hrun, ?_, ?_, hrest, (keepsAllBut_setSchedule_tick s _).trans hframe⟩
    · rw [hdt, State.tick_dt, toNat_countDown, State.setSchedule_dt, Nat.sub_sub, Nat.add_comm]
    · rw [hst, State.tick_st, toNat_countDown, State.setSchedule_st, Nat.sub_sub, Nat.add_comm]

/-- Settles O49: the event replaces one entry of the keypad. -/
theorem keyEventSetsOneEntry : Obligations.KeyEventSetsOneEntry := by
  intro s k b rest hs
  refine ⟨_, step_of_schedule_cons s _ rest hs, Vector.getElem_set_self k.isLt, fun j hj => ?_, rfl,
    keepsAllBut_keys_memory_schedule (by simp) (fun _ => rfl) (by simp)⟩
  exact Vector.getElem_set_ne k.isLt j.isLt (fun h => hj (Fin.ext h.symm))

/-- Settles O50: a load that fits is one block written, and one that does not fit leaves the state. -/
theorem loadWritesAllOrNothing : Obligations.LoadWritesAllOrNothing := by
  intro s offset bytes rest hs
  have hstep := step_of_schedule_cons s _ rest hs
  refine ⟨fun hfits => ?_, fun hout => ?_⟩
  · have hload (u : State) : u.load offset bytes = (.accepted, u.setMem (u.mem.writeBytes offset bytes)) :=
      if_pos ((wellFormedLoad_iff _ _).2 hfits)
    rw [deliver, hload] at hstep
    exact ⟨_, hstep, fun j hj => s.mem.read_writeBytes_of_inside offset j bytes hj,
      fun a ha => s.mem.read_writeBytes_of_outside offset a bytes ha, rfl,
      keepsAllBut_keys_memory_schedule (fun _ => rfl) (by simp) (by simp), by rw [hload]⟩
  · have hload (u : State) : u.load offset bytes = (.outOfBoundsMemoryAccess, u) :=
      if_neg (fun h => absurd ((wellFormedLoad_iff _ _).1 h) (Nat.not_le_of_lt hout))
    rw [deliver, hload] at hstep
    exact ⟨hstep, by rw [hload]⟩

/-- Settles O51: the state after the event is the reset state but for the two fields that are outside the core. -/
theorem resetRestoresEverything : Obligations.ResetRestoresEverything := by
  intro s rest hs
  refine ⟨_, step_of_schedule_cons s _ rest hs, rfl, getV_reset, rfl, rfl, rfl, fun k hk => ?_, rfl, rfl,
    Screen.lit_dark, fun k => ?_, read_reset_font, Memory.unlisted_fill, rfl, rfl, rfl, rfl⟩
  · exact Vector.getElem_replicate hk
  · exact Vector.getElem_replicate k.isLt

end
